-- ==== Sys2Proof/Word.lean ====
section
/-! DEFINITION. The words of the DES core: bit vectors of a fixed length (00_scope.md R8, sizes R6).

A spec vector `v : Vec n` has index 0 first and most significant; it is a `BitVec n` whose index `i` is `getMsbD i` and whose
`val` is `toNat`. A port value `x : UInt n` is a `BitVec n` as well, with `x[b]` the bit `getLsbD b`. So `vec_n` and `val` of
R8 change only the way the bits are numbered, never the bits (DEDUCED, safe: assumption log entry 4). -/

namespace Sys2Proof

/-- A bit vector of `n` bits, most significant bit first (R8). -/
abbrev Vec (n : Nat) := BitVec n

/-- A 64-bit port value: key, plaintext, ciphertext (R34). -/
abbrev Word := BitVec 64

/-- A 64-bit block (R6 BLOCK_BITS). -/
abbrev Block := Vec 64

/-- A round key (R6 ROUNDKEY_BITS). -/
abbrev RoundKey := Vec 48

/-- One half of a block, `L` or `R` (R6 HALF_BITS). -/
abbrev Half := Vec 32

/-- One half of the permuted key, `C` or `D` (R6 CD_BITS). -/
abbrev KeyHalf := Vec 28

/-- A command word `CW`: operation code in bits 65..64, data in bits 63..0 (30_encoding.md R90). -/
abbrev CommandWord := BitVec 66

end Sys2Proof
end

