-- ==== Sys2Proof/Syntax.lean ====
section
/-! DEFINITION. The commands of the DES core: one constructor per row of spec/opcode_table.json (30_encoding.md R90, R91).
Every command carries the whole 64-bit `data` field; `NOP` carries it too, although it is ignored, so that no bit of a command
word is lost in decoding (R92). -/

namespace Sys2Proof

/-- A command, the core's instruction (R91). -/
inductive Instr where
  /-- `NOP`, op 0: `data` is ignored (R176). -/
  | nop (data : Word)
  /-- `LDKEY`, op 1: `key` is the 64-bit key (R130). -/
  | ldkey (key : Word)
  /-- `ENC`, op 2: `block` is a plaintext block (R177). -/
  | enc (block : Word)
  /-- `DEC`, op 3: `block` is a ciphertext block (R178). -/
  | dec (block : Word)
  deriving DecidableEq, Repr

end Sys2Proof
end

