-- ==== Sys2Proof/WellFormed.lean ====
section
/-! DEFINITION. The well-formedness checks of this hardware. A command is well formed whatever its operand: all 2^64 values of
`data` are legal for every opcode (30_encoding.md R92, R93). What can be ill formed lies around the command: a number too wide
for a command word (R90), a key integer that does not fit the port (44_host_framing.md R207 (b)), a text with a code point above
255 (R207 (a)), and a constant table that breaks its invariant (20_memory.md R51). -/

namespace Sys2Proof

/-- Every command is legal with every operand: there is no illegal key and no illegal block (R92, R93). -/
def Instr.wellFormed : Instr → Bool
  | .nop _ => true
  | .ldkey _ => true
  | .enc _ => true
  | .dec _ => true

/-- A number that is a command word: a `UInt 66` (R90). -/
def commandNumberOk (w : Nat) : Bool := decide (w < 2 ^ 66)

/-- A key integer the 64-bit port can carry (R207 (b)): neither negative nor `2^64` or more. -/
def keyOk (key : Int) : Bool := decide (0 ≤ key) && decide (key < 2 ^ 64)

/-- A text the Bit Converter accepts: "one byte per character, code points 0–255 only" (R207 (a)). -/
def textOk (text : List Nat) : Bool := text.all fun c => decide (c ≤ 255)

/-- The invariant of a permutation table with `n` entries for inputs of `m` bits: 1-based source positions in `[1, m]`
(R51). -/
def tableOk (m n : Nat) (positions : List Nat) : Bool :=
  decide (positions.length = n) && positions.all fun p => decide (1 ≤ p) && decide (p ≤ m)

/-- The invariant of a substitution table: 64 entries, each in 0..15 (R51). -/
def sboxOk (entries : List Nat) : Bool :=
  decide (entries.length = 64) && entries.all fun t => decide (t < 16)

end Sys2Proof
end

