-- ==== Sys2Proof/Decode.lean ====
section
/-! DEFINITION. Decoding and encoding of command words (30_encoding.md R90 to R94). The decoder is total on 66-bit words: `op`
has four values and all four are commands (R93). The one thing it rejects, by name, is a number that is no 66-bit word. -/

namespace Sys2Proof

/-- The field `CW[65:64]`, the operation code (R90). -/
def opField (cw : CommandWord) : BitVec 2 := cw.extractLsb' 64 2

/-- The field `CW[63:0]`, the operand (R90). -/
def dataField (cw : CommandWord) : Word := cw.extractLsb' 0 64

/-- The command the four values of `op` stand for (R91). -/
def decodeOp (op : BitVec 2) (data : Word) : Instr :=
  match op.toFin with
  | 0 => .nop data
  | 1 => .ldkey data
  | 2 => .enc data
  | 3 => .dec data

/-- The decoder: every 66-bit command word is a command (R93). -/
def decode (cw : CommandWord) : Instr := decodeOp (opField cw) (dataField cw)

/-- Why a number is refused by the decoder. -/
inductive DecodeError where
  /-- The number needs more than 66 bits, so it is no command word (R90). Safe: nothing is decoded. -/
  | tooWide
  deriving DecidableEq, Repr

/-- The decoder on a number (R90, R94: every command is one 66-bit word, there is no longer form). -/
def decodeNumber (w : Nat) : Except DecodeError Instr :=
  if commandNumberOk w then .ok (decode (BitVec.ofNat 66 w)) else .error .tooWide

/-- The operation code of a command (R91). -/
def opcode : Instr → BitVec 2
  | .nop _ => 0#2
  | .ldkey _ => 1#2
  | .enc _ => 2#2
  | .dec _ => 3#2

/-- The operand of a command (R92): used whole. -/
def operand : Instr → Word
  | .nop data => data
  | .ldkey key => key
  | .enc block => block
  | .dec block => block

/-- The command word of the two command ports: `CW = cmd_op * 2^64 + cmd_data` (R90). -/
def commandWord (op : BitVec 2) (data : Word) : CommandWord := op ++ data

/-- The encoder (R90, R91). -/
def encode (i : Instr) : CommandWord := commandWord (opcode i) (operand i)

/-- What the decoder reads from an instruction whose bits are `w`, of which the opcode table gives the lowest `nbits`: the bits
above `nbits` are 0. `none` where the decoder refuses. -/
def decodeTableWord (nbits w : Nat) : Option Instr :=
  match decodeNumber (w % 2 ^ nbits) with
  | .ok i => some i
  | .error _ => none

end Sys2Proof
end

