-- ==== Sys2Proof/Machine/State.lean ====
section
/-! DEFINITION. The state of the DES core as plain data: every register of 10_state.md, and the input port values the host
presents at the coming clock edges. The reasons a step can stop, and the state after reset (R40). -/

namespace Sys2Proof.Machine

/-- `PHASE`, a 2-bit register with four named values (R23); their numbers are `phaseCode` of Machine/Flags.lean. -/
inductive Phase where
  /-- 0, IDLE: no command in progress. -/
  | idle
  /-- 1, KS: key schedule in progress, `CNT` rounds done. -/
  | ks
  /-- 2, RND: block command in progress, `CNT` rounds done. -/
  | rnd
  /-- 3, FP: 16 rounds done, the final permutation is next. -/
  | fp
  deriving DecidableEq, Repr

/-- `DIR`, a 1-bit register (R32); its bit is `dirBit` of Machine/Flags.lean. -/
inductive Dir where
  /-- 0: encryption, round keys in the order 0..15. -/
  | encrypt
  /-- 1: decryption, round keys in the order 15..0. -/
  | decrypt
  deriving DecidableEq, Repr

/-- The values of the input ports at one rising edge (R34); the host chooses them (R20). -/
structure PortIn where
  /-- `rst`, synchronous reset, active high. -/
  rst : Bool
  /-- `cmd_valid`: a command is presented. -/
  cmdValid : Bool
  /-- `cmd_op`, the operation code. -/
  cmdOp : BitVec 2
  /-- `cmd_data`, the operand. -/
  cmdData : Word
  deriving DecidableEq, Repr

/-- The state of one core (10_state.md R21 to R33). -/
structure State where
  /-- `PHASE` (R23). -/
  phase : Phase
  /-- `CNT`, 4 bits, the index of the next round (R23). -/
  cnt : Fin 16
  /-- `DIR` (R32). -/
  dir : Dir
  /-- `KEY_VALID` (R25, R27). -/
  keyValid : Bool
  /-- `OUT_VALID` (R25, R26). -/
  outValid : Bool
  /-- `ERR_NOKEY`, sticky (R25, R28). -/
  errNoKey : Bool
  /-- `K[0]` to `K[15]`, the round-key file (R21). -/
  k : Vector RoundKey 16
  /-- `C`, the left half of the permuted key (R30). -/
  c : KeyHalf
  /-- `D`, the right half of the permuted key (R30). -/
  d : KeyHalf
  /-- `L`, the left half of the block (R31). -/
  l : Half
  /-- `R`, the right half of the block (R31). -/
  r : Half
  /-- `OUT`, the result block (R33). -/
  out : Block
  /-- THE MODEL'S OWN FIELD, no register: the input port values at the coming edges, the next edge first. When the list has
  ended the host presents nothing. Any host behaviour is some list (DESIGN CHOICE, safe: assumption log entry 2). -/
  inputs : List PortIn
  deriving DecidableEq, Repr

/-- Why the machine could stop. The core's one fault, `NoKey`, is no stop: it is a next state with `ERR_NOKEY` set
(60_exceptions.md R221, R224, R225), so nothing of this type is ever answered. -/
inductive Fault where
  /-- The source's MalformedTable: a table entry outside its input. Raised by NOTHING: tables are constants that carry the proof
  of their invariant (R51, R220). It is named because R220 lists it. Safe. -/
  | malformedTable
  deriving DecidableEq, Repr

/-- Why an instruction could have no meaning. All four commands have one, so nothing of this type is ever answered. -/
inductive Refusal where
  /-- An arm of `exec` that is not modelled yet. Raised by nothing: no arm is left. Safe. -/
  | notModelled (mnemonic : String)
  deriving DecidableEq, Repr

/-- The state after a reset edge (R40): all registers 0, `PHASE` IDLE. The host has presented nothing yet (the value of
`inputs` is a DESIGN CHOICE: assumption log entry 2). -/
def State.reset : State where
  phase := .idle
  cnt := 0
  dir := .encrypt
  keyValid := false
  outValid := false
  errNoKey := false
  k := Vector.replicate 16 0#48
  c := 0#28
  d := 0#28
  l := 0#32
  r := 0#32
  out := 0#64
  inputs := []

end Sys2Proof.Machine
end

