-- ==== Sys2Proof/Machine/Operands.lean ====
section
/-! DEFINITION. The operand forms of the commands and the splitting of vectors (00_scope.md R8, 30_encoding.md R92). -/

namespace Sys2Proof.Machine

/-- `vec_64(x)` of a port value: index `i` of the vector is bit `63 - i` of the port (R8, R70). The bits stay where they
are, only their numbering changes. -/
def vec64 (x : Word) : Vec 64 := x

/-- `val(v)` of a 64-bit vector, as a port shows it: bit 63 is index 0 (R8, R34). -/
def val64 (v : Vec 64) : Word := v

/-- The key vector of `LDKEY`: key position 1 is `data[63]` (R92). -/
def keyVector (key : Word) : Vec 64 := vec64 key

/-- The block vector of `ENC` and `DEC`: block index 0 is `data[63]` (R92). -/
def blockVector (block : Word) : Block := vec64 block

/-- `zext_64(k)` of a host key integer that fits the port (R92, 44_host_framing.md R207 (b)). -/
def zext64 (key : Nat) : Word := BitVec.ofNat 64 key

/-- Index `i` of a vector as the number 0 or 1 (R8). -/
def bitAt {n : Nat} (v : Vec n) (i : Nat) : Nat := (v.getMsbD i).toNat

/-- `v[0..31]`, the first half of a block. -/
def leftHalf (v : Block) : Half := v.extractLsb' 32 32

/-- `v[32..63]`, the second half of a block. -/
def rightHalf (v : Block) : Half := v.extractLsb' 0 32

/-- `v[0..27]` of the 56-bit permuted key, the rows 0 to 3 of `PC1` (R57). -/
def leftKeyHalf (v : Vec 56) : KeyHalf := v.extractLsb' 28 28

/-- `v[28..55]` of the 56-bit permuted key, the rows 4 to 7 of `PC1` (R57). -/
def rightKeyHalf (v : Vec 56) : KeyHalf := v.extractLsb' 0 28

/-- `a ++ b` of two block halves, `a` first (R8). -/
def joinHalves (a b : Half) : Block := a ++ b

/-- `c ++ d` of two key halves, `c` first (R8). -/
def joinKeyHalves (c d : KeyHalf) : Vec 56 := c ++ d

/-- The command word on the two command ports (R90). -/
def portWord (p : PortIn) : CommandWord := commandWord p.cmdOp p.cmdData

/-- The ports when the host presents the command word `cw` with `rst = 0` (R34, R95). -/
def presenting (cw : CommandWord) : PortIn where
  rst := false
  cmdValid := true
  cmdOp := opField cw
  cmdData := dataField cw

/-- The ports when the host presents nothing: `rst = 0`, `cmd_valid = 0` (R96 `WAIT`). -/
def presentingNothing : PortIn where
  rst := false
  cmdValid := false
  cmdOp := 0#2
  cmdData := 0#64

/-- The ports at a reset edge: `rst = 1` (R96 `RESET`). -/
def assertingReset : PortIn where
  rst := true
  cmdValid := false
  cmdOp := 0#2
  cmdData := 0#64

end Sys2Proof.Machine
end

