-- ==== Sys2Proof/Machine/Permutation.lean ====
section
/-! DEFINITION. The Permutation Engine: the one bit-selection primitive and its six instances (40_permutation_engine.md R110 to
R119). Pure functions; a table carries its invariant, so the undefined out-of-range case of R112 has no value here. -/

namespace Sys2Proof.Machine

/-- The number of positions of a table is its output length (R51). -/
theorem Table.length_eq {m n : Nat} (t : Table m n) : t.positions.length = n := by
  have h := t.ok
  simp only [tableOk, Bool.and_eq_true, decide_eq_true_eq] at h
  exact h.1

/-- `permute(input, table)[i] = input[table[i] - 1]` (R110). -/
def permute {m n : Nat} (input : Vec m) (table : Table m n) : Vec n :=
  (BitVec.ofBoolListBE (table.positions.map fun p => input.getMsbD (p - 1))).cast
    ((List.length_map _).trans table.length_eq)

/-- `ip(b)`, the initial permutation (R114). -/
def ip (b : Block) : Block := permute b ipTable

/-- `fp(b)`, the final permutation (R115). -/
def fp (b : Block) : Block := permute b fpTable

/-- `expand(r)`: `E` applied to the 32-bit half directly, no padding step (R116, 90_conflicts.md C2). -/
def expand (r : Half) : Vec 48 := permute r eTable

/-- `pperm(s)`, the round permutation (R117). -/
def pperm (s : Half) : Half := permute s pTable

/-- `pc1(k)`, the first key permutation, which drops the 8 parity bits (R118). -/
def pc1 (k : Vec 64) : Vec 56 := permute k pc1Table

/-- `pc2(cd)`, the second key permutation (R119). -/
def pc2 (cd : Vec 56) : RoundKey := permute cd pc2Table

end Sys2Proof.Machine
end

