-- ==== Sys2Proof/Machine/Feistel.lean ====
section
/-! DEFINITION. The Feistel Round Engine (42_feistel_round.md R150 to R156). Combinational: it has no register. -/

namespace Sys2Proof.Machine

/-- Chunk `j` of `m48`: `m48[6j .. 6j+5]`, chunk 0 leftmost (R153). -/
def chunk (m48 : Vec 48) (j : Fin 8) : Vec 6 := m48.extractLsb' (42 - 6 * j) 6

/-- `row = c[0]*2 + c[5]`, the two outer bits (R153). -/
def sboxRow (c : Vec 6) : Nat := bitAt c 0 * 2 + bitAt c 5

/-- `col = c[1]*8 + c[2]*4 + c[3]*2 + c[4]`, the four inner bits (R153). -/
def sboxCol (c : Vec 6) : Nat := bitAt c 1 * 8 + bitAt c 2 * 4 + bitAt c 3 * 2 + bitAt c 4

/-- One bit is 0 or 1. -/
theorem bitAt_le_one {n : Nat} (v : Vec n) (i : Nat) : bitAt v i ≤ 1 := Bool.toNat_le _

/-- The flat index is within the 64 entries (R159). -/
theorem sboxIndex_lt (c : Vec 6) : sboxRow c * 16 + sboxCol c < 64 := by
  have h := fun i => bitAt_le_one c i
  have h0 := h 0
  have h1 := h 1
  have h2 := h 2
  have h3 := h 3
  have h4 := h 4
  have h5 := h 5
  unfold sboxRow sboxCol
  omega

/-- The flat index `row*16 + col`, which is not `val(c)` (R153, 90_conflicts.md C7). -/
def sboxIndex (c : Vec 6) : Fin 64 := ⟨sboxRow c * 16 + sboxCol c, sboxIndex_lt c⟩

/-- A substitution table has 64 entries (R51). -/
theorem SBox.length_eq (b : SBox) : b.entries.length = 64 := by
  have h := b.ok
  simp only [sboxOk, Bool.and_eq_true, decide_eq_true_eq] at h
  exact h.1

/-- Entry `i` of a substitution table (R72). -/
def sboxRead (b : SBox) (i : Fin 64) : Nat := b.entries[i.val]'(by rw [b.length_eq]; exact i.isLt)

/-- `vec_4(t_j)`: the value chunk `j` is replaced by, as 4 bits, most significant first (R153, R154). -/
def substituteChunk (m48 : Vec 48) (j : Fin 8) : Vec 4 :=
  BitVec.ofNat 4 (sboxRead (sboxTable j) (sboxIndex (chunk m48 j)))

/-- `substitute(m48)`: the eight 4-bit outputs, that of `SBOX[0]` most significant (R154). -/
def substitute (m48 : Vec 48) : Half :=
  substituteChunk m48 0 ++ substituteChunk m48 1 ++ substituteChunk m48 2 ++ substituteChunk m48 3 ++
    substituteChunk m48 4 ++ substituteChunk m48 5 ++ substituteChunk m48 6 ++ substituteChunk m48 7

/-- `f(r, k) = pperm(substitute(expand(r) xor k))`, steps 1 to 4 of the round (R150 to R155). -/
def feistel (r : Half) (roundKey : RoundKey) : Half := pperm (substitute (expand r ^^^ roundKey))

/-- `round(leftHalf, rightHalf, roundKey) = (rightHalf, f(rightHalf, roundKey) xor leftHalf)` (R150, R156). -/
def feistelRound (l r : Half) (roundKey : RoundKey) : Half × Half := (r, feistel r roundKey ^^^ l)

end Sys2Proof.Machine
end

