-- ==== Sys2Proof/Machine/Flags.lean ====
section
/-! DEFINITION. The derived flag, the status bundle and the output ports, all pure functions of the registers
(10_state.md R25, R29, R34), and the numbers of the named register values (R23, R32). -/

namespace Sys2Proof.Machine

/-- The 2-bit value of `PHASE` (R23). -/
def phaseCode : Phase → BitVec 2
  | .idle => 0#2
  | .ks => 1#2
  | .rnd => 2#2
  | .fp => 3#2

/-- The bit of `DIR`: 0 encrypt, 1 decrypt (R32). -/
def dirBit : Dir → Bool
  | .encrypt => false
  | .decrypt => true

/-- `busy`: `PHASE != IDLE` (R25). -/
def busy (s : State) : Bool := decide (s.phase ≠ .idle)

/-- Port `cmd_ready`: `PHASE = IDLE` (R34). -/
def cmdReady (s : State) : Bool := !busy s

/-- Port `out_valid` (R34). -/
def outValidPort (s : State) : Bool := s.outValid

/-- Port `out_data`: `val(OUT)`; bit 63 is `OUT[0]` (R34). It shows register `OUT` whatever `out_valid` is (U7). -/
def outData (s : State) : Word := val64 s.out

/-- Port `key_valid` (R34). -/
def keyValidPort (s : State) : Bool := s.keyValid

/-- Port `err_nokey` (R34). -/
def errNoKeyPort (s : State) : Bool := s.errNoKey

/-- The read-only bundle `STATUS`: bit 3 ERR_NOKEY, bit 2 KEY_VALID, bit 1 OUT_VALID, bit 0 BUSY (R29). -/
def status (s : State) : BitVec 4 :=
  BitVec.ofBool s.errNoKey ++ BitVec.ofBool s.keyValid ++ BitVec.ofBool s.outValid ++ BitVec.ofBool (busy s)

end Sys2Proof.Machine
end

