-- ==== Sys2Proof/Machine/Ops.lean ====
section
/-! DEFINITION. The named operations over the registers that every command shares: the round-key file, the one fault, the reset
edge, and the input ports of the coming edges. -/

namespace Sys2Proof.Machine

/-- Read of `K[i]` (R9, R21). -/
def readKey (s : State) (i : Fin 16) : RoundKey := s.k[i]

/-- Write of `K[i]` (R9, R21); it leaves the other fifteen alone. -/
def writeKey (s : State) (i : Fin 16) (rk : RoundKey) : State := { s with k := s.k.set i rk }

/-- `raise NoKey`, the whole of fault entry (60_exceptions.md R221, R224): the sticky flag is set and nothing else changes. No
state is saved, no mode changes, control goes nowhere. There is no return from it: only reset clears the flag (R225). -/
def raiseNoKey (s : State) : State := { s with errNoKey := true }

/-- A reset edge: every register takes its reset value, whatever the state and the command ports (R40, R250, R251). What the
host will present at later edges is not the core's and stays. -/
def resetEdge (s : State) : State := { State.reset with inputs := s.inputs }

/-- The input port values at the coming edge; nothing is presented after the end of the list. -/
def portsNow (s : State) : PortIn := s.inputs.headD presentingNothing

/-- The state as the core sees it at the edge: the port values of this edge are used up (R258: they are sampled at this edge
only). -/
def popInputs (s : State) : State := { s with inputs := s.inputs.tail }

/-- The state with the port values `p` at the coming edge, before those it carries already. -/
def withPorts (s : State) (p : PortIn) : State := { s with inputs := p :: s.inputs }

/-- The state whose coming edge accepts the command word `cw`: the word is on the ports with `rst = 0`, and the core is ready
(R171: acceptance needs `PHASE = IDLE`; `CNT` is 0 there, R23). -/
def withCommandWord (s : State) (cw : CommandWord) : State :=
  { s with phase := .idle, cnt := 0, inputs := presenting cw :: s.inputs.tail }

/-- As `withCommandWord`, for the instruction whose bits are the lowest `nbits` of `w`, all bits above them 0. -/
def withTableWord (s : State) (nbits w : Nat) : State := withCommandWord s (BitVec.ofNat 66 (w % 2 ^ nbits))

end Sys2Proof.Machine
end

