-- ==== Sys2Proof/Machine/KeySchedule.lean ====
section
/-! DEFINITION. The Key Schedule Generator (41_key_schedule.md): the schedule as a function (R131, R136) and the two transitions
that compute it in the registers (R132 to R135). -/

namespace Sys2Proof.Machine

/-- `rotl_28(v, s)[i] = v[(i + s) mod 28]` (R131). -/
def rotl28 (v : KeyHalf) (s : Nat) : KeyHalf := v.rotateLeft s

/-- `SHIFT[i]` (R59). -/
def shiftAmount (i : Fin 16) : Nat := shiftTable[i.val]'i.isLt

/-- One rotation of both halves, each on its own (R133). -/
def rotateHalves (cd : KeyHalf × KeyHalf) (s : Nat) : KeyHalf × KeyHalf := (rotl28 cd.1 s, rotl28 cd.2 s)

/-- `C0 ++ D0 = pc1(vec_64(key))` (R132, R136). -/
def initialHalves (key : Word) : KeyHalf × KeyHalf :=
  (leftKeyHalf (pc1 (keyVector key)), rightKeyHalf (pc1 (keyVector key)))

/-- `(C(n), D(n))`: the halves after the first `n` rounds; rotations are cumulative (R133, R136). -/
def halvesAfter (key : Word) (n : Nat) : KeyHalf × KeyHalf :=
  (shiftTable.take n).foldl rotateHalves (initialHalves key)

/-- The round key selected from rotated halves: `pc2(C' ++ D')` (R134). -/
def selectKey (cd : KeyHalf × KeyHalf) : RoundKey := pc2 (joinKeyHalves cd.1 cd.2)

/-- `keySchedule(key) = (k_0, ..., k_15)` with `k_i = pc2(C(i+1) ++ D(i+1))` (R136). -/
def keySchedule (key : Word) : Vector RoundKey 16 :=
  Vector.ofFn fun i => selectKey (halvesAfter key (i.val + 1))

/-- Acceptance transition of `LDKEY` (R132). -/
def acceptKey (key : Word) (s : State) : State :=
  { s with
    c := (initialHalves key).1
    d := (initialHalves key).2
    keyValid := false
    cnt := 0
    phase := .ks }

/-- Key-schedule transition: rotate (R133), select `K[CNT]` from the rotated halves (R134), count or finish (R135). All right
sides use the values before the edge (R9). -/
def keyTransition (s : State) : State :=
  let cd := rotateHalves (s.c, s.d) (shiftAmount s.cnt)
  let written := writeKey { s with c := cd.1, d := cd.2 } s.cnt (selectKey cd)
  if s.cnt = 15 then { written with cnt := 0, phase := .idle, keyValid := true }
  else { written with cnt := s.cnt + 1 }

end Sys2Proof.Machine
end

