-- ==== Sys2Proof/Machine/Driver.lean ====
section
/-! DEFINITION. The Cipher Driver and sequencer (43_cipher_driver.md): the block function (R175), the transitions of a block
command (R172 to R174), and what one clock edge does beside accepting a command (R170). -/

namespace Sys2Proof.Machine

/-- The round-key index of round transition `n`: `n` for encryption, `15 - n` for decryption (R173). -/
def keyIndex (dir : Dir) (n : Fin 16) : Fin 16 :=
  match dir with
  | .encrypt => n
  | .decrypt => ⟨15 - n.val, by omega⟩

/-- `(L0, R0)`: the halves of `ip(b)` (R172, R175). -/
def initialBlockHalves (b : Block) : Half × Half := (leftHalf (ip b), rightHalf (ip b))

/-- Round transition `n` on the pair of halves (R173, R175). -/
def roundStep (ks : Vector RoundKey 16) (dir : Dir) (lr : Half × Half) (n : Fin 16) : Half × Half :=
  feistelRound lr.1 lr.2 ks[keyIndex dir n]

/-- `(L(n), R(n))`: the halves after the first `n` rounds (R175). -/
def blockHalvesAfter (ks : Vector RoundKey 16) (b : Block) (dir : Dir) (n : Nat) : Half × Half :=
  ((List.finRange 16).take n).foldl (roundStep ks dir) (initialBlockHalves b)

/-- `fp(R ++ L)`, right half first (R174). -/
def finalBlock (lr : Half × Half) : Block := fp (joinHalves lr.2 lr.1)

/-- `desBlock(ks, b, dir)` (R175). -/
def desBlock (ks : Vector RoundKey 16) (b : Block) (dir : Dir) : Block :=
  finalBlock (blockHalvesAfter ks b dir 16)

/-- The IP transition: acceptance of `ENC` or `DEC` with a key loaded (R172). `OUT` is not changed. -/
def ipTransition (dir : Dir) (block : Word) (s : State) : State :=
  { s with
    l := (initialBlockHalves (blockVector block)).1
    r := (initialBlockHalves (blockVector block)).2
    dir := dir
    outValid := false
    cnt := 0
    phase := .rnd }

/-- Acceptance of a block command: `KEY_VALID` is checked before any other effect; without a key the fault NoKey, else the IP
transition (R170, R223). -/
def acceptBlock (dir : Dir) (block : Word) (s : State) : State :=
  if s.keyValid then ipTransition dir block s else raiseNoKey s

/-- Round transition (R173). -/
def roundTransition (s : State) : State :=
  let lr := feistelRound s.l s.r (readKey s (keyIndex s.dir s.cnt))
  let written := { s with l := lr.1, r := lr.2 }
  if s.cnt = 15 then { written with cnt := 0, phase := .fp }
  else { written with cnt := s.cnt + 1 }

/-- Final transition (R174). -/
def finalTransition (s : State) : State :=
  { s with out := finalBlock (s.l, s.r), outValid := true, phase := .idle }

/-- The transition of the phase in progress, which reads no command port (R170); in IDLE there is none and nothing changes
(R234). -/
def advance (s : State) : State :=
  match s.phase with
  | .idle => s
  | .ks => keyTransition s
  | .rnd => roundTransition s
  | .fp => finalTransition s

/-- One edge with `rst = 0` at which a command is presented whose acceptance does `accept`: it is accepted exactly in IDLE
(R171); in the other phases the command is not read and the phase's transition is taken (R170, R255). -/
def presentCommand (accept : State → State) (s : State) : State :=
  match s.phase with
  | .idle => accept s
  | .ks | .rnd | .fp => advance s

end Sys2Proof.Machine
end

