-- ==== Sys2Proof/Machine/BlockCommands.lean ====
section
/-! DEFINITION. The commands `ENC` and `DEC` (43_cipher_driver.md R172, R177, R178; 60_exceptions.md R221). A meaning is the
accepting edge; the 16 rounds and the final permutation that complete the command are `advance` at the next 17 edges (R170,
R262). -/

namespace Sys2Proof.Machine

/-- `ENC block`: the IP transition with direction 0, or the fault NoKey (R177). -/
def execEnc (block : Word) (s : State) : Host.Outcome State Fault Refusal :=
  .next (presentCommand (acceptBlock .encrypt block) s)

/-- `DEC block`: the IP transition with direction 1, or the fault NoKey (R178). -/
def execDec (block : Word) (s : State) : Host.Outcome State Fault Refusal :=
  .next (presentCommand (acceptBlock .decrypt block) s)

end Sys2Proof.Machine
end

