-- ==== Sys2Proof/Machine/KeyCommand.lean ====
section
/-! DEFINITION. The command `LDKEY` (41_key_schedule.md R130, R132). The meaning is the accepting edge; the 16 key-schedule
transitions that complete the command are `advance` at the next 16 edges (R170, R262). -/

namespace Sys2Proof.Machine

/-- `LDKEY key`: accepted in every IDLE state, no fault (R130, R132). -/
def execLdkey (key : Word) (s : State) : Host.Outcome State Fault Refusal :=
  .next (presentCommand (acceptKey key) s)

end Sys2Proof.Machine
end

