-- ==== Sys2Proof/Machine/NopCommand.lean ====
section
/-! DEFINITION. The command `NOP` (43_cipher_driver.md R176). -/

namespace Sys2Proof.Machine

/-- `NOP`: the command is consumed and no register changes; `data` is ignored; it never faults (R176). -/
def execNop (_data : Word) (s : State) : Host.Outcome State Fault Refusal :=
  .next (presentCommand id s)

end Sys2Proof.Machine
end

