-- ==== Sys2Proof/Machine/Dispatch.lean ====
section
/-! DEFINITION. What the core does at one edge with rst = 0 at which the command i is presented: one arm per command. -/

namespace Sys2Proof.Machine

def exec (i : Instr) (s : State) : Host.Outcome State Fault Refusal :=
  match i with
  | .nop data => Sys2Proof.Machine.execNop data s
  | .ldkey key => Sys2Proof.Machine.execLdkey key s
  | .enc block => Sys2Proof.Machine.execEnc block s
  | .dec block => Sys2Proof.Machine.execDec block s

end Sys2Proof.Machine
end

