-- ==== Sys2Proof/Machine/Edge.lean ====
section
/-! DEFINITION. One rising clock edge: the transition function of 43_cipher_driver.md R170 with the precedence of
60_exceptions.md R223. -/

namespace Sys2Proof.Machine

/-- The command accepted at the coming edge: there is one exactly when `rst = 0`, `PHASE = IDLE` and `cmd_valid = 1` (R171). -/
def acceptedCommand (s : State) : Option Instr :=
  if !(portsNow s).rst && (portsNow s).cmdValid && cmdReady s then some (decode (portWord (portsNow s))) else none

/-- Reset wins over everything; else, if a command is on the ports, the edge is that command's (it is accepted in IDLE and not
read in the other phases, `presentCommand`); else the phase in progress goes on (R170, R223). -/
def clockEdge (s : State) : Host.Outcome State Fault Refusal :=
  let p := portsNow s
  let t := popInputs s
  if p.rst then .next (resetEdge t)
  else if p.cmdValid then exec (decode (portWord p)) t
  else .next (advance t)

end Sys2Proof.Machine
end

