-- ==== Sys2Proof/Machine/Step.lean ====
section
/-! DEFINITION. One step of the machine is one rising clock edge (43_cipher_driver.md R170). -/

namespace Sys2Proof.Machine

/-- One step: one rising edge of `clk` (R20, R170). -/
def step (s : State) : Host.Outcome State Fault Refusal := clockEdge s

/-- `s` with the instruction of bits `w` (of which the table gives `nbits`) where `step` takes its next instruction: on the
command ports of the coming edge, the core being ready (assumption log entry 3). -/
def State.withFetchWord (s : State) (nbits w : Nat) : State := withTableWord s nbits w

end Sys2Proof.Machine
end

