-- ==== Sys2Proof/Config.lean ====
section
/-! DEFINITION. What is fixed for this core and is no state: the numbers of clock edges per command (00_scope.md R7,
70_reset_and_hazards.md R262) and the host's padding byte (44_host_framing.md R201). Nothing in this hardware leaves an
instruction's result open, so there is no free value here (93_implementation_defined.md U1 to U13). -/

namespace Sys2Proof.Config

/-- T_NOP: edges of a `NOP`, and of a block command that faults (R7, R262). -/
def tNop : Nat := 1

/-- T_LDKEY: edges of an `LDKEY`, its accepting edge included (R7, R262). -/
def tLdkey : Nat := 17

/-- T_BLOCK: edges of an `ENC` or `DEC` with a key loaded, its accepting edge included (R7, R262). -/
def tBlock : Nat := 18

/-- PAD_BYTE: the host pads a text with this character (R6, R201). -/
def padByte : Nat := 127

end Sys2Proof.Config
end

