-- ==== Sys2Proof/Machine/Run.lean ====
section
/-! DEFINITION. Several clock edges in a row. -/

namespace Sys2Proof.Machine

/-- `n` edges from `s`, with the input port values `s` carries (R20); it stops where a step stops. -/
def runEdges : Nat → State → Host.Outcome State Fault Refusal
  | 0, s => .next s
  | n + 1, s =>
    match step s with
    | .next t => runEdges n t
    | .fault reason => .fault reason
    | .refused reason => .refused reason

end Sys2Proof.Machine
end

