-- ==== Sys2Proof/Machine/HostDriver.lean ====
section
/-! DEFINITION. The host's side of the command interface: what a command line and the directives RESET, WAIT and READ do, edge by
edge (30_encoding.md R95, R96; 70_reset_and_hazards.md R255, R256). Everything goes through `step`; nothing here is state of the
core (00_scope.md R4). -/

namespace Sys2Proof.Machine

/-- Why a host call fails. -/
inductive HostError where
  /-- EncodingError: a code point above 255 (44_host_framing.md R207 (a)). Raised before any command is issued. Safe. -/
  | encodingError
  /-- A key integer that is negative or `2^64` or more (R207 (b)). Raised before any command is issued. Safe. -/
  | keyOutOfRange
  /-- READ found `out_valid = 0` once the core was ready (R96), or a result to put back in input order is missing (R210; no
  spread run lacks one). Safe: no value is taken. -/
  | noResult
  /-- The core did not become ready within the edges of the longest command, or a step stopped. No core does either. Safe. -/
  | coreStopped
  deriving DecidableEq, Repr

/-- One edge at which the host puts `p` on the ports (R20). -/
def clockWith (p : PortIn) (s : State) : Except HostError State :=
  match step (withPorts s p) with
  | .next t => .ok t
  | .fault _ => .error .coreStopped
  | .refused _ => .error .coreStopped

/-- Edges at which the host presents `p`, until `cmd_ready = 1` is seen; at most `fuel` of them. -/
def clockUntilReady (p : PortIn) : Nat → State → Except HostError State
  | 0, s => if cmdReady s then .ok s else .error .coreStopped
  | fuel + 1, s =>
    if cmdReady s then .ok s
    else (clockWith p s).bind (clockUntilReady p fuel)

/-- WAIT: edges with `rst = 0`, `cmd_valid = 0` until `cmd_ready = 1` (R96). -/
def hostWait (s : State) : Except HostError State := clockUntilReady presentingNothing Config.tBlock s

/-- A command line: the word is held on the ports until an edge at which `cmd_ready = 1`, the edge that accepts it (R95,
R255). -/
def hostIssue (i : Instr) (s : State) : Except HostError State :=
  (clockUntilReady (presenting (encode i)) Config.tBlock s).bind (clockWith (presenting (encode i)))

/-- RESET: one edge with `rst = 1` (R96). -/
def hostReset (s : State) : Except HostError State := clockWith assertingReset s

/-- READ: WAIT, then require `out_valid = 1` and take `out_data` (R96, R256). -/
def hostRead (s : State) : Except HostError (State × Word) :=
  (hostWait s).bind fun t => if outValidPort t then .ok (t, outData t) else .error .noResult

/-- One line of a host's program (R95, R96). -/
inductive Line where
  /-- A command line. -/
  | command (i : Instr)
  /-- RESET. -/
  | reset
  /-- WAIT. -/
  | wait
  /-- READ: the value is added to those the host has taken. -/
  | read
  deriving DecidableEq, Repr

/-- One line on a core: the state after it and the value it takes, if it is a READ. -/
def runLine (line : Line) (s : State) : Except HostError (State × List Word) :=
  match line with
  | .command i => (hostIssue i s).map fun t => (t, [])
  | .reset => (hostReset s).map fun t => (t, [])
  | .wait => (hostWait s).map fun t => (t, [])
  | .read => (hostRead s).map fun p => (p.1, [p.2])

/-- The lines of a program in order: the state after the last one and all values taken, in order. -/
def runLines : List Line → State → Except HostError (State × List Word)
  | [], s => .ok (s, [])
  | line :: rest, s =>
    (runLine line s).bind fun p => (runLines rest p.1).map fun q => (q.1, p.2 ++ q.2)

end Sys2Proof.Machine
end

