-- ==== Sys2Proof/Machine/Assembler.lean ====
section
/-! DEFINITION. The notation for command sequences (30_encoding.md R95, R96): one line is a list of characters. What R95 does not
fix (blanks between the parts, the case of hexadecimal digits, lines that hold no command or more than one) is a DESIGN CHOICE of
the model, assumption log entry 11. -/

namespace Sys2Proof.Machine

/-- The character of a hexadecimal digit, capitals. -/
def hexChar (n : Nat) : Char := if n < 10 then Char.ofNat (48 + n) else Char.ofNat (55 + n)

/-- The value of a hexadecimal digit, capital or not. -/
def hexValue (ch : Char) : Option Nat :=
  let n := ch.toNat
  if 48 ≤ n ∧ n ≤ 57 then some (n - 48)
  else if 65 ≤ n ∧ n ≤ 70 then some (n - 55)
  else if 97 ≤ n ∧ n ≤ 102 then some (n - 87)
  else none

/-- An operand as written: `0x` and exactly 16 hexadecimal digits (R95). -/
def renderOperand (w : Word) : List Char :=
  '0' :: 'x' :: (List.range 16).map fun i => hexChar (w.extractLsb' (60 - 4 * i) 4).toNat

/-- The value of a list of hexadecimal digits. -/
def hexDigits : List Char → Nat → Option Nat
  | [], acc => some acc
  | ch :: rest, acc => (hexValue ch).bind fun d => hexDigits rest (acc * 16 + d)

/-- Reading an operand: `0x` and exactly 16 digits, else refused (R95). -/
def parseOperand : List Char → Option Word
  | '0' :: 'x' :: digits => if digits.length = 16 then (hexDigits digits 0).map (BitVec.ofNat 64) else none
  | _ => none

/-- A line as written; the assembler writes no operand for `NOP` (R95). -/
def renderLine : Line → List Char
  | .command (.nop _) => ['N', 'O', 'P']
  | .command (.ldkey key) => ['L', 'D', 'K', 'E', 'Y', ' '] ++ renderOperand key
  | .command (.enc block) => ['E', 'N', 'C', ' '] ++ renderOperand block
  | .command (.dec block) => ['D', 'E', 'C', ' '] ++ renderOperand block
  | .reset => ['R', 'E', 'S', 'E', 'T']
  | .wait => ['W', 'A', 'I', 'T']
  | .read => ['R', 'E', 'A', 'D', ' ', '-', '>', ' ', 'x']

/-- The characters before a comment, which `;` starts (R95). -/
def stripComment : List Char → List Char
  | [] => []
  | ch :: rest => if ch = ';' then [] else ch :: stripComment rest

/-- The parts of a line between blanks; `current` holds the part being read, reversed. -/
def splitBlanks : List Char → List Char → List (List Char)
  | [], current => if current.isEmpty then [] else [current.reverse]
  | ch :: rest, current =>
    if ch = ' ' then
      if current.isEmpty then splitBlanks rest [] else current.reverse :: splitBlanks rest []
    else splitBlanks rest (ch :: current)

/-- The line the parts stand for; `NOP` has data 0 (R95, R96). The name after `READ ->` is the host's own and is not kept.
A line that holds no command (blank, or only a `;` comment) stands for none and is answered `none`, as a line with parts too many
or too few is: R95 says only that one command stands on a line and that `;` starts a comment (DESIGN CHOICE, safe: assumption
log entry 11). -/
def parseParts : List (List Char) → Option Line
  | [['N', 'O', 'P']] => some (.command (.nop 0#64))
  | [['L', 'D', 'K', 'E', 'Y'], a] => (parseOperand a).map fun w => .command (.ldkey w)
  | [['E', 'N', 'C'], a] => (parseOperand a).map fun w => .command (.enc w)
  | [['D', 'E', 'C'], a] => (parseOperand a).map fun w => .command (.dec w)
  | [['R', 'E', 'S', 'E', 'T']] => some .reset
  | [['W', 'A', 'I', 'T']] => some .wait
  | [['R', 'E', 'A', 'D'], ['-', '>'], _] => some .read
  | _ => none

/-- Reading one line (R95). -/
def parseLine (line : List Char) : Option Line := parseParts (splitBlanks (stripComment line) [])

end Sys2Proof.Machine
end

