-- ==== Sys2Proof/Machine/Framing.lean ====
section
/-! DEFINITION. The host contract of 44_host_framing.md: the Bit Converter (R200 to R204), the text operations `encrypt` and
`decrypt` as command sequences on a core (R205, R206), their refusals (R207), and the spreading of blocks over several cores, in
consecutive or interleaved parts (R210). Host software above the command interface (00_scope.md R4). A text is a list of code
points. -/

namespace Sys2Proof.Machine

/-- The block of eight characters, the first in the most significant byte (R200). -/
def bytesToBlock (bytes : List Nat) : Word := BitVec.ofNat 64 (bytes.foldl (fun acc c => acc * 256 + c) 0)

/-- A short last group filled up to 8 characters with the padding character 127 (R201). -/
def padGroup (group : List Nat) : List Nat := group ++ List.replicate (8 - group.length) Config.padByte

/-- The groups of 8 characters from the front, the last one padded if it is short and not empty (R200, R201, R202). -/
def cutBlocks : List Nat → List Word
  | [] => []
  | c0 :: c1 :: c2 :: c3 :: c4 :: c5 :: c6 :: c7 :: rest =>
    bytesToBlock [c0, c1, c2, c3, c4, c5, c6, c7] :: cutBlocks rest
  | group => [bytesToBlock (padGroup group)]

/-- `textToBlocks` (R200 to R202); a code point above 255 is an EncodingError, before anything else (R207 (a)). -/
def textToBlocks (text : List Nat) : Except HostError (List Word) :=
  if textOk text then .ok (cutBlocks text) else .error .encodingError

/-- The characters of a block: `b[63:56], b[55:48], ..., b[7:0]` (R203). -/
def blockToBytes (b : Word) : List Nat := (List.range 8).map fun i => (b.extractLsb' (56 - 8 * i) 8).toNat

/-- `blocksToText`: padding is never stripped (R203, R204). -/
def blocksToText (blocks : List Word) : List Nat := blocks.flatMap blockToBytes

/-- The lines the macros ENCRYPT and DECRYPT expand to: one `LDKEY`, then one block command and one READ per block, in order
(R96, R180, R205). -/
def messageLines (command : Word → Instr) (key : Word) (blocks : List Word) : List Line :=
  .command (.ldkey key) :: blocks.flatMap fun b => [.command (command b), .read]

/-- The text operation with the block command `command` on the core `s`: the checks first, then the lines; for a text without
blocks no command is issued (R202, R205, R207). -/
def cryptText (command : Word → Instr) (text : List Nat) (key : Int) (s : State) :
    Except HostError (State × List Nat) :=
  match textToBlocks text with
  | .error e => .error e
  | .ok blocks =>
    if !keyOk key then .error .keyOutOfRange
    else if blocks.isEmpty then .ok (s, [])
    else (runLines (messageLines command (zext64 key.toNat) blocks) s).map fun p => (p.1, blocksToText p.2)

/-- `encrypt(plaintext, key)` (R205). -/
def encryptText (text : List Nat) (key : Int) (s : State) : Except HostError (State × List Nat) :=
  cryptText .enc text key s

/-- `decrypt(ciphertext, key)`: the same sequence with `DEC` (R206, R208). -/
def decryptText (text : List Nat) (key : Int) (s : State) : Except HostError (State × List Nat) :=
  cryptText .dec text key s

/-- Several cores at work: each runs its own `LDKEY` and the block commands of its own part, and the host waits until that run has
ended (R260), also on a core that got no block; the answer is each core's last state with the results taken from it (R210,
60_exceptions.md R232). The cores share nothing, so that one is run after the other is
no more than the order of writing it down (DESIGN CHOICE, safe: assumption log entry 16). -/
def runCores (command : Word → Instr) (key : Word) :
    List (State × List Word) → Except HostError (List (State × List Word))
  | [] => .ok []
  | part :: rest =>
    (runLines (messageLines command key part.2 ++ [.wait]) part.1).bind fun p =>
      (runCores command key rest).map fun ps => p :: ps

/-- The blocks of one message spread in consecutive parts: the results are joined in the order of the parts, which is input
order (R210). -/
def spreadBlocks (command : Word → Instr) (key : Word) (parts : List (State × List Word)) :
    Except HostError (List State × List Word) :=
  (runCores command key parts).map fun ps => (ps.map fun p => p.1, ps.flatMap fun p => p.2)

/-- The blocks a plan gives to core `c`, in input order. A plan names for each block of a message, in input order, the core it
goes to; any plan is allowed, so parts may interleave (R210, 92_eei_decisions.md D18: "the host distributes blocks"). -/
def blocksOfCore {n : Nat} (plan : List (Fin n × Word)) (c : Fin n) : List Word :=
  (plan.filter fun entry => entry.1 = c).map fun entry => entry.2

/-- Results put back in input order (R210, D18: "and reorders results"): for each block in turn, the next result of the core it
went to. A result that is missing fails the call; no run of `spreadPlan` lacks one. -/
def inInputOrder : List Nat → List (List Word) → Except HostError (List Word)
  | [], _ => .ok []
  | c :: rest, results =>
    match results[c]? with
    | some (o :: os) => (inInputOrder rest (results.set c os)).map fun more => o :: more
    | _ => .error .noResult

/-- The blocks of one message spread over `cores` by any plan: every core runs its own part, and the results are put back in
input order (R210). The answer holds each core's last state as well. -/
def spreadPlan (command : Word → Instr) (key : Word) (cores : List State) (plan : List (Fin cores.length × Word)) :
    Except HostError (List State × List Word) :=
  (runCores command key ((List.finRange cores.length).map fun c => (cores[c], blocksOfCore plan c))).bind fun ps =>
    (inInputOrder (plan.map fun entry => entry.1.val) (ps.map fun p => p.2)).map fun os => (ps.map fun p => p.1, os)

/-- The plan that deals the blocks to `n` cores in turn: block `q` goes to core `q mod n`. One plan among all. -/
def dealInTurn {n : Nat} (hn : 0 < n) (blocks : List Word) : List (Fin n × Word) :=
  blocks.zipIdx.map fun p => (⟨p.2 % n, Nat.mod_lt p.2 hn⟩, p.1)

end Sys2Proof.Machine
end

