-- ==== Sys2Proof/Machine/Atomic.lean ====
section
/-! DEFINITION. A command taken as a whole: its effect once the core is IDLE again, and how many edges it takes
(41_key_schedule.md R130, 43_cipher_driver.md R176 to R178, 70_reset_and_hazards.md R262). The step function does not use these:
they are the spec's second description of the same commands, and the statements say that the two agree. -/

namespace Sys2Proof.Machine

/-- The effect of a block command taken as a whole (R177, R178; without a key R221). -/
def blockEffect (dir : Dir) (block : Word) (s : State) : State :=
  if s.keyValid then
    { s with
      out := desBlock s.k (blockVector block) dir
      outValid := true
      dir := dir
      l := (blockHalvesAfter s.k (blockVector block) dir 16).1
      r := (blockHalvesAfter s.k (blockVector block) dir 16).2
      phase := .idle
      cnt := 0 }
  else raiseNoKey s

/-- The effect of `LDKEY` taken as a whole (R130, R137). -/
def keyEffect (key : Word) (s : State) : State :=
  { s with
    k := keySchedule key
    c := (initialHalves key).1
    d := (initialHalves key).2
    keyValid := true
    phase := .idle
    cnt := 0 }

/-- The effect of a command accepted in `s`, taken as a whole (R130, R176 to R178). -/
def commandEffect (i : Instr) (s : State) : State :=
  match i with
  | .nop _ => s
  | .ldkey key => keyEffect key s
  | .enc block => blockEffect .encrypt block s
  | .dec block => blockEffect .decrypt block s

/-- The edges of a command accepted in `s`, the accepting edge included (R171, R262). -/
def commandEdges (i : Instr) (s : State) : Nat :=
  match i with
  | .nop _ => Config.tNop
  | .ldkey _ => Config.tLdkey
  | .enc _ | .dec _ => if s.keyValid then Config.tBlock else Config.tNop

end Sys2Proof.Machine
end

