-- ==== Sys2Proof/Safety.lean ====
section
/-! DEFINITION. What counts as a safe run, and the invariants of the reachable states (10_state.md R23, R27, R28;
70_reset_and_hazards.md R260). -/

namespace Sys2Proof

open Sys2Proof.Machine

/-- A faulted state, never a good final state: `ERR_NOKEY = 1` (R28, R225). -/
def Faulted (s : State) : Bool := s.errNoKey

/-- The observable outcome of a run: the four output values and the values the host took (R260). Hidden registers, the number
of edges, and `out_data` while `out_valid = 0` say nothing (R260). -/
structure Observation where
  outValid : Bool
  outData : Option Word
  keyValid : Bool
  errNoKey : Bool
  taken : List Word
  deriving DecidableEq, Repr

/-- The observable outcome in the state a run ended in. -/
def observe (s : State) (taken : List Word) : Observation where
  outValid := outValidPort s
  outData := if outValidPort s then some (outData s) else none
  keyValid := keyValidPort s
  errNoKey := errNoKeyPort s
  taken := taken

/-- A run has ended: every command has been accepted (the lines are done) and `PHASE = IDLE` (R260). A run that has ended may have
gone wrong: whether its last state is a good one is `GoodFinal`. -/
def RunEnded (s : State) : Bool := cmdReady s

/-- A good final state: the run has ended and the state is not faulted. A state with `ERR_NOKEY = 1` is never one (R28, R225),
though the core is ready in it and goes on. -/
def GoodFinal (s : State) : Bool := RunEnded s && !Faulted s

/-- A run has gone wrong: its final state has `err_nokey = 1` (R260). -/
def WentWrong (o : Observation) : Bool := o.errNoKey

/-- `CNT` is 0 whenever `PHASE` is IDLE or FP (R23). -/
def CounterInv (s : State) : Prop := (s.phase = .idle ∨ s.phase = .fp) → s.cnt = 0

/-- The flag invariants of R27. The last clause says "no `LDKEY` has been accepted since the last reset" in terms of the
state: every register but `ERR_NOKEY` still has its reset value. -/
def FlagInv (s : State) : Prop :=
  (s.phase = .ks → s.keyValid = false) ∧
  ((s.phase = .rnd ∨ s.phase = .fp) → s.keyValid = true) ∧
  (s.outValid = true → s.keyValid = false → s.phase = .ks) ∧
  (s.keyValid = false → s.phase = .idle → s = { State.reset with errNoKey := s.errNoKey, inputs := s.inputs })

/-- `K` holds the complete schedule of one key while `KEY_VALID = 1` (R27), with that key's halves in `C` and `D` (R137); during a
key load the first `CNT` round keys are new and `C`, `D` are the halves rotated so far (R133, R259). -/
def ScheduleInv (s : State) : Prop :=
  (s.keyValid = true → ∃ key, s.k = keySchedule key ∧ (s.c, s.d) = initialHalves key) ∧
  (s.phase = .ks → ∃ key, (s.c, s.d) = halvesAfter key s.cnt.val ∧
    ∀ i : Fin 16, i.val < s.cnt.val → s.k[i] = (keySchedule key)[i])

/-- No reset at the next `n` edges (R130, R177: "`rst = 0` throughout"). -/
def NoReset (n : Nat) (s : State) : Prop := ∀ p ∈ s.inputs.take n, p.rst = false

/-- A block command: `ENC` or `DEC` (R91: `op[1] = 1`). -/
def isBlockCommand : Instr → Bool
  | .nop _ => false
  | .ldkey _ => false
  | .enc _ => true
  | .dec _ => true

/-- `LDKEY`. -/
def isKeyCommand : Instr → Bool
  | .nop _ => false
  | .ldkey _ => true
  | .enc _ => false
  | .dec _ => false

/-- Two states that differ at most in round keys that no rule reads (R22, R259): everything but `K` is equal, `K` is equal while
`KEY_VALID = 1`, and during a key load the round keys already written are equal. -/
def EqualButUnreadKeys (s t : State) : Prop :=
  t = { s with k := t.k } ∧
  (s.keyValid = true → t.k = s.k) ∧
  (s.phase = .ks → ∀ i : Fin 16, i.val < s.cnt.val → t.k[i] = s.k[i])

/-- A program asks for a block before any key: some `ENC` or `DEC` comes before the first `LDKEY` (R221, R254). -/
def BlockBeforeKey : List Instr → Bool
  | [] => false
  | i :: rest => isBlockCommand i || (!isKeyCommand i && BlockBeforeKey rest)

/-- The three invariants together. -/
def Inv (s : State) : Prop := CounterInv s ∧ FlagInv s ∧ ScheduleInv s

end Sys2Proof
end

