-- ==== Sys2Proof/Certificates/Slice0/Obligations.lean ====
section
/-! DEFINITION. The statements about the DES core. Each docstring names the rules it formalises. An input waveform is part of a
state, so "for every state" covers every behaviour of the host. -/

open Sys2Proof Sys2Proof.Machine

/-! ### Encoding -/

/-- Decoding undoes encoding on every command, and encoding undoes decoding on every 66-bit word: no bit of a command word is
dropped and no word is without a command (R90 to R94). For `NOP` words whose data is not 0 the second half is the model's choice,
no rule of the spec: R92 says that these bits are ignored, and the constructor keeps them (assumption log entry 15). -/
def Obligations.DecodeEncodeInverse : Prop :=
  (∀ i : Instr, decode (encode i) = i) ∧ (∀ cw : CommandWord, encode (decode cw) = cw)

/-- The words of 95_test_vectors.md 3.7, and the first number too wide for a command word. Two points are the model's choice: that
`2^66` is refused under the name tooWide (assumption log entry 14) and that `NOP` keeps its ignored data (assumption log
entry 15). -/
def Obligations.DecodeSampleWords : Prop :=
  decodeNumber 0x00000000000000000 = .ok (.nop 0x0000000000000000#64) ∧
  decodeNumber 0x000000000DEADBEEF = .ok (.nop 0x00000000DEADBEEF#64) ∧
  decodeNumber 0x1133457799BBCDFF1 = .ok (.ldkey 0x133457799BBCDFF1#64) ∧
  decodeNumber 0x20123456789ABCDEF = .ok (.enc 0x0123456789ABCDEF#64) ∧
  decodeNumber 0x385E813540F0AB405 = .ok (.dec 0x85E813540F0AB405#64) ∧
  decodeNumber 0x3FFFFFFFFFFFFFFFF = .ok (.dec 0xFFFFFFFFFFFFFFFF#64) ∧
  decodeNumber 0x40000000000000000 = .error .tooWide

/-! ### The step -/

/-- A step at which a command is presented with `rst = 0` is `exec` of the decoded command, on the state whose input ports have
moved on; a step at which nothing is presented is the phase's own transition; a reset edge is a reset (R170, R223). In IDLE the
first clause runs the command. In KS, RND and FP the core does not decode the word (R93, R255): that `exec` is written for these
phases too, as the transition of the phase in progress whatever the command, is the model's choice (assumption log entry 1). -/
def Obligations.StepRunsDecodedCommand : Prop :=
  ∀ s : State,
    ((portsNow s).rst = false → (portsNow s).cmdValid = true →
      step s = exec (decode (portWord (portsNow s))) (popInputs s)) ∧
    ((portsNow s).rst = false → (portsNow s).cmdValid = false → step s = .next (advance (popInputs s))) ∧
    ((portsNow s).rst = true → step s = .next (resetEdge (popInputs s)))

/-- `State.withFetchWord` makes the next step run exactly the command of the word, on the core made ready (R171, R34). Where the
word is put is the model's choice (assumption log entry 3). -/
def Obligations.PlacedWordIsRunNext : Prop :=
  ∀ (s : State) (nbits w : Nat), 66 ≤ nbits → w < 2 ^ 66 →
    step (s.withFetchWord nbits w) =
      exec (decode (BitVec.ofNat 66 w)) { s with phase := .idle, cnt := 0, inputs := s.inputs.tail }

/-- The transition function of R170, whole: every state with its port values has exactly one next state, and it is this one. -/
def Obligations.EdgeIsTransitionFunction : Prop :=
  ∀ s : State,
    step s = .next (
      if (portsNow s).rst = true then { State.reset with inputs := s.inputs.tail }
      else match s.phase with
        | .idle =>
          if (portsNow s).cmdValid = false then popInputs s
          else if (portsNow s).cmdOp = 0#2 then popInputs s
          else if (portsNow s).cmdOp = 1#2 then acceptKey (portsNow s).cmdData (popInputs s)
          else if s.keyValid = false then { popInputs s with errNoKey := true }
          else ipTransition (if (portsNow s).cmdOp = 2#2 then .encrypt else .decrypt) (portsNow s).cmdData (popInputs s)
        | .ks => keyTransition (popInputs s)
        | .rnd => roundTransition (popInputs s)
        | .fp => finalTransition (popInputs s))

/-- `PHASE` and `CNT` advance only as R24 lists; reset apart, there is no other transfer of control. -/
def Obligations.PhaseSequence : Prop :=
  ∀ s t : State, step s = .next t → (portsNow s).rst = false →
    (s.phase = .idle →
      (t.phase = .idle ∧ t.cnt = s.cnt ∧
        (∀ key, acceptedCommand s ≠ some (.ldkey key)) ∧
        (∀ i, acceptedCommand s = some i → isBlockCommand i = true → s.keyValid = false)) ∨
      (t.phase = .ks ∧ t.cnt = 0 ∧ ∃ key, acceptedCommand s = some (.ldkey key)) ∨
      (t.phase = .rnd ∧ t.cnt = 0 ∧ s.keyValid = true ∧
        ∃ block, acceptedCommand s = some (.enc block) ∨ acceptedCommand s = some (.dec block))) ∧
    (s.phase = .ks →
      (s.cnt.val = 15 ∧ t.phase = .idle ∧ t.cnt = 0) ∨
      (s.cnt.val < 15 ∧ t.phase = .ks ∧ t.cnt.val = s.cnt.val + 1)) ∧
    (s.phase = .rnd →
      (s.cnt.val = 15 ∧ t.phase = .fp ∧ t.cnt = 0) ∨
      (s.cnt.val < 15 ∧ t.phase = .rnd ∧ t.cnt.val = s.cnt.val + 1)) ∧
    (s.phase = .fp → t.phase = .idle ∧ t.cnt = s.cnt)

/-! ### Reset -/

/-- Reset: after one or more edges with `rst = 1`, whatever the state and whatever is on the command ports, every register has
its reset value and the core stays there while `rst` stays 1 (R250, R40). -/
def Obligations.ResetEdges : Prop :=
  ∀ (n : Nat) (s : State), n + 1 ≤ s.inputs.length → (∀ p ∈ s.inputs.take (n + 1), p.rst = true) →
    ∃ t, runEdges (n + 1) s = .next t ∧
      t.phase = .idle ∧ t.cnt = 0 ∧ t.dir = .encrypt ∧ t.keyValid = false ∧ t.outValid = false ∧ t.errNoKey = false ∧
      (∀ i : Fin 16, t.k[i] = 0#48) ∧ t.c = 0#28 ∧ t.d = 0#28 ∧ t.l = 0#32 ∧ t.r = 0#32 ∧ t.out = 0#64 ∧
      t.inputs = s.inputs.drop (n + 1)

/-- What the ports show after reset: ready, no key, no result, no fault (R40, R252). -/
def Obligations.PortsAfterReset : Prop :=
  cmdReady State.reset = true ∧ outValidPort State.reset = false ∧ keyValidPort State.reset = false ∧
  errNoKeyPort State.reset = false ∧ outData State.reset = 0#64 ∧ status State.reset = 0#4

/-! ### The command NOP -/

/-- `NOP` is consumed and changes no register, with or without a key; its `data` is ignored; in its effect it cannot be told
from an edge with `cmd_valid = 0` (R176). -/
def Obligations.NopCompletes : Prop :=
  (∀ (data : Word) (s : State), s.phase = .idle → exec (.nop data) s = .next s) ∧
  (∀ (data : Word) (s : State),
    step (withPorts s (presenting (encode (.nop data)))) = step (withPorts s presentingNothing))

/-! ### The command LDKEY -/

/-- Acceptance of `LDKEY` (R132): `C ++ D` is `pc1` of the key, `KEY_VALID` and `CNT` are 0, `PHASE` is KS, nothing else changes;
the eight bits `data[0], data[8], ..., data[56]` have no effect. -/
def Obligations.LdkeyAccepts : Prop :=
  ∀ (key : Word) (s : State), s.phase = .idle →
    (∃ t, exec (.ldkey key) s = .next t ∧
      joinKeyHalves t.c t.d = pc1 (vec64 key) ∧
      t = { s with c := t.c, d := t.d, keyValid := false, cnt := 0, phase := .ks }) ∧
    (∀ key' : Word, (∀ b < 64, b % 8 ≠ 0 → key'.getLsbD b = key.getLsbD b) →
      exec (.ldkey key') s = exec (.ldkey key) s)

/-- The key-schedule transition (R133, R134, R135): both halves are rotated by `SHIFT[CNT]`, `K[CNT]` is `pc2` of the rotated
halves, the other round keys stay, and `CNT` counts or the command ends. The command ports do not matter. -/
def Obligations.KeyScheduleTransition : Prop :=
  ∀ s : State, s.phase = .ks → (portsNow s).rst = false →
    ∃ t, step s = .next t ∧
      (∀ i < 28, t.c.getMsbD i = s.c.getMsbD ((i + shiftAmount s.cnt) % 28)) ∧
      (∀ i < 28, t.d.getMsbD i = s.d.getMsbD ((i + shiftAmount s.cnt) % 28)) ∧
      t.k[s.cnt] = pc2 (joinKeyHalves t.c t.d) ∧
      (∀ j : Fin 16, j ≠ s.cnt → t.k[j] = s.k[j]) ∧
      (if s.cnt.val = 15 then t.cnt.val = 0 ∧ t.phase = .idle ∧ t.keyValid = true
        else t.cnt.val = s.cnt.val + 1 ∧ t.phase = .ks ∧ t.keyValid = s.keyValid) ∧
      t.dir = s.dir ∧ t.outValid = s.outValid ∧ t.errNoKey = s.errNoKey ∧ t.l = s.l ∧ t.r = s.r ∧ t.out = s.out ∧
      t.inputs = s.inputs.tail

/-- `LDKEY` taken as a whole (R130, R137): accepted in every IDLE state, 17 edges with the accepting one, whatever else is on the
command ports meanwhile; `K` is the schedule of the key, `C ++ D` is `pc1` of it again, `KEY_VALID` is 0 from acceptance to the
last edge and then 1, and nothing else changes. That the edges are 17 is the model's choice of R7's parameter `T_LDKEY` (assumption
log entry 8). -/
def Obligations.LdkeyCompletes : Prop :=
  ∀ (key : Word) (s : State), s.phase = .idle → NoReset 16 s →
    ∃ t₀ t, exec (.ldkey key) s = .next t₀ ∧ runEdges 16 t₀ = .next t ∧
      t = { s with
        k := keySchedule key
        c := t.c
        d := t.d
        keyValid := true
        phase := .idle
        cnt := 0
        inputs := s.inputs.drop 16 } ∧
      joinKeyHalves t.c t.d = pc1 (vec64 key) ∧
      t.k[(15 : Fin 16)] = pc2 (joinKeyHalves t.c t.d) ∧
      (∀ n < 16, ∃ u, runEdges n t₀ = .next u ∧ cmdReady u = false ∧ u.keyValid = false)

/-- The schedule as a function (R136): the recursion over the 16 rounds and its closed form with the cumulative rotation
amounts. -/
def Obligations.KeyScheduleClosedForm : Prop :=
  ∀ key : Word,
    joinKeyHalves (halvesAfter key 0).1 (halvesAfter key 0).2 = pc1 (vec64 key) ∧
    (∀ i : Fin 16,
      halvesAfter key (i.val + 1) =
        (rotl28 (halvesAfter key i.val).1 (shiftAmount i), rotl28 (halvesAfter key i.val).2 (shiftAmount i)) ∧
      (keySchedule key)[i] = pc2 (joinKeyHalves (halvesAfter key (i.val + 1)).1 (halvesAfter key (i.val + 1)).2)) ∧
    (∀ (i : Fin 16) (amount : Nat), [1, 2, 4, 6, 8, 10, 12, 14, 15, 17, 19, 21, 23, 25, 27, 28][i.val]? = some amount →
      halvesAfter key (i.val + 1) =
        ((halvesAfter key 0).1.rotateLeft amount, (halvesAfter key 0).2.rotateLeft amount))

/-- Keys that differ only in the eight dropped bits give the same schedule; a key whose two halves are each all zeros or all ones
gives 16 equal round keys, so that `ENC` and `DEC` compute the same function under it (R138). -/
def Obligations.CornerKeys : Prop :=
  (∀ key key' : Word, (∀ b < 64, b % 8 ≠ 0 → key'.getLsbD b = key.getLsbD b) → keySchedule key' = keySchedule key) ∧
  (∀ i : Fin 16, (keySchedule 0x0000000000000000#64)[i] = 0x000000000000#48 ∧
    (keySchedule 0xFFFFFFFFFFFFFFFF#64)[i] = 0xFFFFFFFFFFFF#48) ∧
  (∀ key : Word,
    ((initialHalves key).1 = 0#28 ∨ (initialHalves key).1 = 0xFFFFFFF#28) →
    ((initialHalves key).2 = 0#28 ∨ (initialHalves key).2 = 0xFFFFFFF#28) →
    (∀ i j : Fin 16, (keySchedule key)[i] = (keySchedule key)[j]) ∧
    (∀ b : Block, desBlock (keySchedule key) b .encrypt = desBlock (keySchedule key) b .decrypt))

/-! ### The commands ENC and DEC -/

/-- The IP transition (R172), for both directions: `L ++ R` is `ip` of the block, `DIR` is the direction, `OUT_VALID` and `CNT` are
0, `PHASE` is RND, nothing else changes, `OUT` neither. -/
def Obligations.BlockCommandAccepts : Prop :=
  ∀ (block : Word) (s : State), s.phase = .idle → s.keyValid = true →
    (∃ t, exec (.enc block) s = .next t ∧ joinHalves t.l t.r = ip (vec64 block) ∧
      t = { s with l := t.l, r := t.r, dir := .encrypt, outValid := false, cnt := 0, phase := .rnd }) ∧
    (∃ t, exec (.dec block) s = .next t ∧ joinHalves t.l t.r = ip (vec64 block) ∧
      t = { s with l := t.l, r := t.r, dir := .decrypt, outValid := false, cnt := 0, phase := .rnd })

/-- The round transition (R173): one round on `L`, `R` with `K[CNT]` for encryption and `K[15 - CNT]` for decryption; `K` is
read, never written. The command ports do not matter. -/
def Obligations.RoundTransition : Prop :=
  ∀ (s : State) (idx : Fin 16), s.phase = .rnd → (portsNow s).rst = false →
    idx.val = (if s.dir = .encrypt then s.cnt.val else 15 - s.cnt.val) →
    ∃ t, step s = .next t ∧
      t.l = s.r ∧ t.r = pperm (substitute (expand s.r ^^^ s.k[idx])) ^^^ s.l ∧
      (if s.cnt.val = 15 then t.cnt.val = 0 ∧ t.phase = .fp else t.cnt.val = s.cnt.val + 1 ∧ t.phase = .rnd) ∧
      t.dir = s.dir ∧ t.keyValid = s.keyValid ∧ t.outValid = s.outValid ∧ t.errNoKey = s.errNoKey ∧ t.k = s.k ∧
      t.c = s.c ∧ t.d = s.d ∧ t.out = s.out ∧ t.inputs = s.inputs.tail

/-- The final transition (R174): `OUT` is `fp(R ++ L)`, right half first; `OUT_VALID` is 1, `PHASE` is IDLE, nothing else
changes. -/
def Obligations.FinalTransition : Prop :=
  ∀ s : State, s.phase = .fp → (portsNow s).rst = false →
    step s = .next { s with
      out := fp (joinHalves s.r s.l)
      outValid := true
      phase := .idle
      inputs := s.inputs.tail }

/-- The block function (R175): the initial halves, the recursion over the 16 rounds, and the output. -/
def Obligations.BlockFunctionRounds : Prop :=
  ∀ (ks : Vector RoundKey 16) (b : Block) (dir : Dir),
    joinHalves (blockHalvesAfter ks b dir 0).1 (blockHalvesAfter ks b dir 0).2 = ip b ∧
    (∀ n idx : Fin 16, idx.val = (if dir = .encrypt then n.val else 15 - n.val) →
      blockHalvesAfter ks b dir (n.val + 1) =
        feistelRound (blockHalvesAfter ks b dir n.val).1 (blockHalvesAfter ks b dir n.val).2 ks[idx]) ∧
    desBlock ks b dir = fp (joinHalves (blockHalvesAfter ks b dir 16).2 (blockHalvesAfter ks b dir 16).1)

/-- `ENC` taken as a whole (R177). With a key: 18 edges with the accepting one; `OUT` is the encrypted block and `OUT_VALID` is
1; until the last edge `OUT_VALID` is 0 and the previous `OUT` stays. Without a key: the fault, one edge, nothing else. That the
edges are 18 and 1 is the model's choice of R7's parameters (assumption log entry 8). -/
def Obligations.EncCompletes : Prop :=
  ∀ (block : Word) (s : State), s.phase = .idle →
    (s.keyValid = true → NoReset 17 s →
      ∃ t₀ t, exec (.enc block) s = .next t₀ ∧ runEdges 17 t₀ = .next t ∧
        t = { s with
          out := desBlock s.k (vec64 block) .encrypt
          outValid := true
          dir := .encrypt
          l := (blockHalvesAfter s.k (vec64 block) .encrypt 16).1
          r := (blockHalvesAfter s.k (vec64 block) .encrypt 16).2
          phase := .idle
          cnt := 0
          inputs := s.inputs.drop 17 } ∧
        (∀ n < 17, ∃ u, runEdges n t₀ = .next u ∧ cmdReady u = false ∧ u.outValid = false ∧ u.out = s.out)) ∧
    (s.keyValid = false → exec (.enc block) s = .next { s with errNoKey := true })

/-- `DEC` taken as a whole (R178): as `ENC` with the round keys in reverse order; `K` is neither recomputed nor reordered.
That the edges are 18 and 1 is the model's choice of R7's parameters (assumption log entry 8). -/
def Obligations.DecCompletes : Prop :=
  ∀ (block : Word) (s : State), s.phase = .idle →
    (s.keyValid = true → NoReset 17 s →
      ∃ t₀ t, exec (.dec block) s = .next t₀ ∧ runEdges 17 t₀ = .next t ∧
        t = { s with
          out := desBlock s.k (vec64 block) .decrypt
          outValid := true
          dir := .decrypt
          l := (blockHalvesAfter s.k (vec64 block) .decrypt 16).1
          r := (blockHalvesAfter s.k (vec64 block) .decrypt 16).2
          phase := .idle
          cnt := 0
          inputs := s.inputs.drop 17 } ∧
        (∀ n < 17, ∃ u, runEdges n t₀ = .next u ∧ cmdReady u = false ∧ u.outValid = false ∧ u.out = s.out)) ∧
    (s.keyValid = false → exec (.dec block) s = .next { s with errNoKey := true })

/-- `DEC` undoes `ENC` under the same schedule, and the reverse, for every schedule, genuine or not (R179). -/
def Obligations.DecryptionInvertsEncryption : Prop :=
  ∀ (ks : Vector RoundKey 16) (b : Block),
    desBlock ks (desBlock ks b .encrypt) .decrypt = b ∧ desBlock ks (desBlock ks b .decrypt) .encrypt = b

/-- Complementation, and schedules with 16 equal round keys (R181). -/
def Obligations.ComplementAndEqualKeys : Prop :=
  (∀ (key : Word) (b : Block),
    desBlock (keySchedule (~~~key)) (~~~b) .encrypt = ~~~(desBlock (keySchedule key) b .encrypt)) ∧
  (∀ (ks : Vector RoundKey 16) (b : Block), (∀ i j : Fin 16, ks[i] = ks[j]) →
    desBlock ks b .encrypt = desBlock ks b .decrypt ∧
    desBlock ks (desBlock ks b .encrypt) .encrypt = b ∧ desBlock ks (desBlock ks b .decrypt) .decrypt = b)

/-! ### The fault NoKey -/

/-- Fault entry (R224): a block command accepted without a key sets `ERR_NOKEY` and nothing else, in one edge; the core stays
IDLE and accepts the next command at the next edge. -/
def Obligations.NoKeyFaultSetsOnlyItsFlag : Prop :=
  ∀ (block : Word) (s : State), s.phase = .idle → s.keyValid = false →
    exec (.enc block) s = .next { s with errNoKey := true } ∧
    exec (.dec block) s = .next { s with errNoKey := true } ∧
    cmdReady { s with errNoKey := true } = true

/-- A key is missing in IDLE exactly when no `LDKEY` has been accepted since the last reset, and then there is no result
(R27, R221): over any number of edges without reset after a reset state, with any input waveform. -/
def Obligations.KeyMissingExactlyBeforeFirstLoad : Prop :=
  ∀ (n : Nat) (waveform : List PortIn) (t : State), NoReset n { State.reset with inputs := waveform } →
    runEdges n { State.reset with inputs := waveform } = .next t → t.phase = .idle →
    (t.keyValid = false ↔
      ∀ m < n, ∀ u key, runEdges m { State.reset with inputs := waveform } = .next u →
        acceptedCommand u ≠ some (.ldkey key)) ∧
    (t.keyValid = false → t.outValid = false ∧ t.out = 0#64)

/-- `ERR_NOKEY` is sticky: once 1 it stays 1 through every edge until reset, and reset clears it (R28). -/
def Obligations.FaultFlagIsSticky : Prop :=
  ∀ s t : State, step s = .next t →
    (s.errNoKey = true → (portsNow s).rst = false → t.errNoKey = true ∧ Faulted t = true) ∧
    ((portsNow s).rst = true → t.errNoKey = false)

/-- What sets and what clears each flag, exactly (R25). -/
def Obligations.FlagsSetAndCleared : Prop :=
  ∀ s t : State, step s = .next t →
    t.keyValid =
      (if (portsNow s).rst = true then false
        else if ∃ key, acceptedCommand s = some (.ldkey key) then false
        else if s.phase = .ks ∧ s.cnt.val = 15 then true
        else s.keyValid) ∧
    t.outValid =
      (if (portsNow s).rst = true then false
        else if (∃ block, acceptedCommand s = some (.enc block) ∨ acceptedCommand s = some (.dec block)) ∧
          s.keyValid = true then false
        else if s.phase = .fp then true
        else s.outValid) ∧
    t.errNoKey =
      (if (portsNow s).rst = true then false
        else if (∃ block, acceptedCommand s = some (.enc block) ∨ acceptedCommand s = some (.dec block)) ∧
          s.keyValid = false then true
        else s.errNoKey) ∧
    (busy s = true ↔ s.phase ≠ .idle) ∧ cmdReady s = !busy s

/-! ### Invariants -/

/-- The invariants hold after reset, whatever the host will present. -/
def Obligations.InvariantsHoldAtReset : Prop :=
  ∀ waveform : List PortIn, Inv { State.reset with inputs := waveform }

/-- `CNT` is 0 whenever `PHASE` is IDLE or FP, and every edge keeps it so (R23). -/
def Obligations.StepKeepsCounterInv : Prop :=
  ∀ s t : State, CounterInv s → step s = .next t → CounterInv t

/-- Every edge keeps the flag invariants of R27. -/
def Obligations.StepKeepsFlagInv : Prop :=
  ∀ s t : State, FlagInv s → step s = .next t → FlagInv t

/-- Every edge keeps it true that `K` is the complete schedule of one key while `KEY_VALID = 1`, and that a key load in progress
has written the first `CNT` round keys of one key (R27, R259). -/
def Obligations.StepKeepsScheduleInv : Prop :=
  ∀ s t : State, FlagInv s → ScheduleInv s → step s = .next t → ScheduleInv t

/-- Round keys without meaning are never observed (R22): two states that differ at most in them stay so at every edge, and show
the same on every port. -/
def Obligations.UnreadKeysAreNeverObserved : Prop :=
  ∀ s t : State, FlagInv s → EqualButUnreadKeys s t →
    (cmdReady s = cmdReady t ∧ outData s = outData t ∧ status s = status t) ∧
    ∃ s' t', step s = .next s' ∧ step t = .next t' ∧ EqualButUnreadKeys s' t'

/-! ### Frames, writers and busy cores -/

/-- The frame of the four commands at their accepting edge: what each leaves unchanged (R130, R172, R176, R221). -/
def Obligations.AcceptanceFrame : Prop :=
  ∀ (i : Instr) (s t : State), s.phase = .idle → exec i s = .next t →
    t.k = s.k ∧ t.out = s.out ∧ t.inputs = s.inputs ∧
    (isKeyCommand i = false → t.c = s.c ∧ t.d = s.d ∧ t.keyValid = s.keyValid) ∧
    (isBlockCommand i = false ∨ s.keyValid = false →
      t.l = s.l ∧ t.r = s.r ∧ t.dir = s.dir ∧ t.outValid = s.outValid) ∧
    (isBlockCommand i = false ∨ s.keyValid = true → t.errNoKey = s.errNoKey)

/-- Who writes each register: reset apart, one round key per key-schedule transition, `OUT` only the final transition, `C` and `D`
only an accepted `LDKEY` and the key-schedule transitions, `L` and `R` only an accepted block command and the round transitions,
`DIR` only an accepted block command (R21, R30 to R33). -/
def Obligations.RegisterWriters : Prop :=
  ∀ s t : State, step s = .next t → (portsNow s).rst = false →
    (∀ i : Fin 16, t.k[i] ≠ s.k[i] → s.phase = .ks ∧ i = s.cnt) ∧
    (t.out ≠ s.out → s.phase = .fp) ∧
    (t.c ≠ s.c ∨ t.d ≠ s.d → s.phase = .ks ∨ ∃ key, acceptedCommand s = some (.ldkey key)) ∧
    (t.l ≠ s.l ∨ t.r ≠ s.r → s.phase = .rnd ∨
      (s.keyValid = true ∧ ∃ block, acceptedCommand s = some (.enc block) ∨ acceptedCommand s = some (.dec block))) ∧
    (t.dir ≠ s.dir →
      s.keyValid = true ∧ ∃ block, acceptedCommand s = some (.enc block) ∨ acceptedCommand s = some (.dec block))

/-- While the core is busy the command ports are not read: whatever is on them, the edge is the same, no command is accepted and
no fault is raised (R255, R170). -/
def Obligations.BusyCoreIgnoresPorts : Prop :=
  ∀ (s : State) (p q : PortIn), s.phase ≠ .idle → p.rst = false → q.rst = false →
    step (withPorts s p) = step (withPorts s q) ∧
    acceptedCommand (withPorts s p) = none ∧
    ∃ t, step (withPorts s p) = .next t ∧ t.errNoKey = s.errNoKey ∧ t.inputs = s.inputs

/-- An IDLE core with `cmd_valid = 0` makes no state change; all state survives indefinitely (R234). -/
def Obligations.IdleCoreKeepsEverything : Prop :=
  ∀ (n : Nat) (s : State), s.phase = .idle → (∀ p ∈ s.inputs.take n, p.rst = false ∧ p.cmdValid = false) →
    runEdges n s = .next { s with inputs := s.inputs.drop n }

/-- From every state, without reset, the core is ready within 17 edges: no transition waits for anything (R260, R262; R170 for the
states no run reaches). The bound of 17 edges is the model's choice of R7's parameters (assumption log entry 8). -/
def Obligations.ReadyWithinSeventeenEdges : Prop :=
  ∀ s : State, NoReset 17 s → ∃ n ≤ 17, ∃ t, runEdges n s = .next t ∧ cmdReady t = true

/-- A command line on any core, busy or not: the word is held until the first edge at which the core is ready, that edge accepts
it, and until then it has no effect (R95, R255). The host layer is the model's form of R95 and R96 (assumption log entry 12). -/
def Obligations.HeldCommandIsAccepted : Prop :=
  ∀ (i : Instr) (s : State), ∃ u t, hostWait s = .ok u ∧ cmdReady u = true ∧ exec i u = .next t ∧ hostIssue i s = .ok t

/-! ### Programs -/

/-- A program of commands, issued line by line on a ready core, has the effect of its commands taken as wholes, one after the
other: the edge-by-edge core implements the atomic commands (R75, R130, R176 to R178, R262). The host layer is the model's form
of R95 and R96 (assumption log entry 12). -/
def Obligations.ProgramsRunAtomically : Prop :=
  ∀ (program : List Instr) (s : State), s.phase = .idle →
    runLines (program.map Line.command ++ [.wait]) s =
      .ok (program.foldl (fun t i => commandEffect i t) s, [])

/-- Commands issued back to back: encrypting a message of `q` blocks under one key takes `17 + 18q` edges, each word being held on
the ports for the edges of its command (R262, R171). The numbers of edges are the model's choice of R7's parameters (assumption
log entry 8). -/
def Obligations.BackToBackMessageTiming : Prop :=
  ∀ (key : Word) (blocks : List Word) (rest : List PortIn) (s : State), s.phase = .idle →
    s.inputs =
      List.replicate Config.tLdkey (presenting (encode (.ldkey key))) ++
      blocks.flatMap (fun b => List.replicate Config.tBlock (presenting (encode (.enc b)))) ++ rest →
    runEdges (17 + 18 * blocks.length) s =
      .next { blocks.foldl (fun t b => blockEffect .encrypt b t) (keyEffect key s) with inputs := rest }

/-- A run of commands after a reset ends with `err_nokey = 1`, that is it has gone wrong, exactly when a block command comes
before the first `LDKEY` (R221, R254, R260). The host layer is the model's form of R95 and R96 (assumption log entry 12). -/
def Obligations.RunGoesWrongExactlyWithoutKey : Prop :=
  ∀ (program : List Instr) (s : State),
    ∃ t, runLines (.reset :: program.map Line.command ++ [.wait]) s = .ok (t, []) ∧ RunEnded t = true ∧
      WentWrong (observe t []) = BlockBeforeKey program

/-! ### The pure functions -/

/-- `permute` selects the positions of its table (R110): for every table that meets the invariant. -/
def Obligations.PermuteSelectsPositions : Prop :=
  ∀ (m n : Nat) (v : Vec m) (t : Table m n) (i position : Nat), t.positions[i]? = some position →
    (permute v t).getMsbD i = v.getMsbD (position - 1) ∧ 1 ≤ position ∧ position ≤ m ∧ i < n

/-- `fp` is the inverse of `ip` on every block (R115). -/
def Obligations.FinalInvertsInitial : Prop :=
  ∀ b : Block, fp (ip b) = b ∧ ip (fp b) = b

/-- The expansion (R116): chunk `j` is the input indices `4j-1` to `4j+4` modulo 32, and appending 16 zero bits first, as the
source does, gives the same 48 bits. -/
def Obligations.ExpansionChunks : Prop :=
  ∀ r : Half,
    (∀ j i : Nat, j < 8 → i < 6 → (expand r).getMsbD (6 * j + i) = r.getMsbD ((4 * j + i + 31) % 32)) ∧
    (∀ padded : Table 48 48, padded.positions = eTable.positions → permute (r ++ 0#16 : Vec 48) padded = expand r)

/-- Linearity (R120): every table's `permute` distributes over `xor` and keeps the all-zero vector; the six instances keep the
all-one vector. -/
def Obligations.PermuteIsLinear : Prop :=
  (∀ (m n : Nat) (t : Table m n) (a b : Vec m), permute (a ^^^ b) t = permute a t ^^^ permute b t) ∧
  (∀ (m n : Nat) (t : Table m n), permute (BitVec.zero m) t = BitVec.zero n) ∧
  ip (BitVec.allOnes 64) = BitVec.allOnes 64 ∧ fp (BitVec.allOnes 64) = BitVec.allOnes 64 ∧
  expand (BitVec.allOnes 32) = BitVec.allOnes 48 ∧ pperm (BitVec.allOnes 32) = BitVec.allOnes 32 ∧
  pc1 (BitVec.allOnes 64) = BitVec.allOnes 56 ∧ pc2 (BitVec.allOnes 56) = BitVec.allOnes 48

/-- The rotation (R131), bit by bit and as integers; rotating by 2 is rotating by 1 twice. -/
def Obligations.RotationOfHalves : Prop :=
  ∀ v : KeyHalf,
    (∀ s, s = 1 ∨ s = 2 →
      (∀ i < 28, (rotl28 v s).getMsbD i = v.getMsbD ((i + s) % 28)) ∧
      (rotl28 v s).toNat = v.toNat * 2 ^ s % 2 ^ 28 + v.toNat / 2 ^ (28 - s)) ∧
    rotl28 v 2 = rotl28 (rotl28 v 1) 1

/-- Substitution (R153, R154): nibble `j` of the result is entry `row*16 + col` of `SBOX[j]`, row from the two outer and column
from the four inner bits of chunk `j`, most significant bit first. -/
def Obligations.SubstitutionByRowAndColumn : Prop :=
  ∀ (m48 : Vec 48) (j : Fin 8), ∃ value,
    (sboxTable j).entries[
      (bitAt m48 (6 * j) * 2 + bitAt m48 (6 * j + 5)) * 16 +
      (bitAt m48 (6 * j + 1) * 8 + bitAt m48 (6 * j + 2) * 4 + bitAt m48 (6 * j + 3) * 2 + bitAt m48 (6 * j + 4))]? =
      some value ∧
    value < 16 ∧
    ∀ i < 4, (substitute m48).getMsbD (4 * j + i) = value.testBit (3 - i)

/-- The round is invertible given the round key (R157). -/
def Obligations.RoundIsInvertible : Prop :=
  ∀ (l r nl nr : Half) (k : RoundKey), (nl, nr) = feistelRound l r k → r = nl ∧ l = nr ^^^ feistel nl k

/-- `f(not r, not k) = f(r, k)` (R158). -/
def Obligations.FeistelIgnoresComplement : Prop :=
  ∀ (r : Half) (k : RoundKey), feistel (~~~r) (~~~k) = feistel r k

/-- The checks R68 (a) to (h) on the constant tables. -/
def Obligations.TablesPassTheChecks : Prop :=
  (List.range' 1 64).all (fun p => ipTable.positions.count p = 1 && fpTable.positions.count p = 1) = true ∧
  (List.range' 1 32).all (fun p => pTable.positions.count p = 1) = true ∧
  (List.range 64).all (fun i => fpTable.positions[ipTable.positions[i]! - 1]! = i + 1) = true ∧
  eTable.positions.length = 48 ∧
  (List.range' 1 32).all (fun p => 1 ≤ eTable.positions.count p && eTable.positions.count p ≤ 2) = true ∧
  ((List.range' 1 32).filter (fun p => eTable.positions.count p = 2)).length = 16 ∧
  pc1Table.positions.length = 56 ∧ pc1Table.positions.Nodup ∧
  pc1Table.positions.all (fun p => 1 ≤ p && p ≤ 64 && p % 8 != 0) = true ∧
  pc2Table.positions.length = 48 ∧ pc2Table.positions.Nodup ∧
  (pc2Table.positions.take 24).all (fun p => 1 ≤ p && p ≤ 28) = true ∧
  (pc2Table.positions.drop 24).all (fun p => 29 ≤ p && p ≤ 56) = true ∧
  (List.range' 1 56).filter (fun p => pc2Table.positions.count p = 0) = [9, 18, 22, 25, 35, 38, 43, 54] ∧
  shiftTable.sum = 28 ∧
  (List.finRange 8).all (fun j => (sboxTable j).entries.length = 64 &&
    (List.range 4).all (fun row => (List.range 16).all (fun v =>
      (((sboxTable j).entries.drop (16 * row)).take 16).count v = 1))) = true ∧
  ipTable.positions.sum = 2080 ∧ fpTable.positions.sum = 2080 ∧ eTable.positions.sum = 792 ∧
  pTable.positions.sum = 528 ∧ pc1Table.positions.sum = 1792 ∧ pc2Table.positions.sum = 1352 ∧
  (List.finRange 8).all (fun j => (sboxTable j).entries.sum = 480) = true

/-- The output ports and the status bundle are functions of the registers (R29, R34); bit 63 of `out_data` is `OUT[0]`. -/
def Obligations.PortsShowRegisters : Prop :=
  ∀ s : State,
    (∀ b < 64, (outData s).getLsbD b = s.out.getMsbD (63 - b)) ∧
    outValidPort s = s.outValid ∧ keyValidPort s = s.keyValid ∧ errNoKeyPort s = s.errNoKey ∧
    (cmdReady s = true ↔ s.phase = .idle) ∧
    (status s).getLsbD 0 = !cmdReady s ∧ (status s).getLsbD 1 = s.outValid ∧
    (status s).getLsbD 2 = s.keyValid ∧ (status s).getLsbD 3 = s.errNoKey

/-! ### The host contract -/

/-- The Bit Converter (R200, R201, R203): a text of code points up to 255 gives one block for every 8 characters begun, and
converting back gives the text followed by the padding characters, none when the length is a multiple of 8. -/
def Obligations.BitConverterRoundTrip : Prop :=
  ∀ text : List Nat, textOk text = true →
    ∃ blocks, textToBlocks text = .ok blocks ∧ blocks.length = (text.length + 7) / 8 ∧
      blocksToText blocks = text ++ List.replicate ((8 - text.length % 8) % 8) 127

/-- What `encrypt` and `decrypt` return, on a core in any state: each block on its own under the schedule of the key, results in
input order, `8 * ceil(n/8)` characters (R180, R205, R206, R208). No call raises a fault: `ERR_NOKEY` is as it was, and where
a command was issued the core ends in a good final state exactly if it did not start faulted (R225; `GoodFinal` is assumption log
entry 7). The host layer is the model's form of R205 (assumption log entry 12). -/
def Obligations.TextOperationsAreBlockwise : Prop :=
  ∀ (text : List Nat) (key : Word) (s : State), textOk text = true →
    (∃ t, encryptText text key.toNat s =
      .ok (t, blocksToText ((cutBlocks text).map fun b => desBlock (keySchedule key) (vec64 b) .encrypt)) ∧
      t.errNoKey = s.errNoKey ∧ (text ≠ [] → GoodFinal t = !s.errNoKey)) ∧
    (∃ t, decryptText text key.toNat s =
      .ok (t, blocksToText ((cutBlocks text).map fun b => desBlock (keySchedule key) (vec64 b) .decrypt)) ∧
      t.errNoKey = s.errNoKey ∧ (text ≠ [] → GoodFinal t = !s.errNoKey)) ∧
    (∀ blocks : List Word, (blocksToText blocks).length = 8 * blocks.length) ∧
    (cutBlocks text).length = (text.length + 7) / 8

/-- The properties the source states (R209), on cores in any states: determinism, round trip as a prefix followed by padding
characters, exact round trip for lengths that are multiples of 8, empty input. Beside them: no call raises a fault, and on a
core that was not faulted both calls end in good final states where they issue a command: these clauses are no part of R209 but
follow from R205, R206, R221 and R225 (`GoodFinal` is the model's reading of R225, assumption log entry 7). The host layer is
the model's form of R205 and R206 (assumption log entry 12). -/
def Obligations.EncryptThenDecrypt : Prop :=
  ∀ (text : List Nat) (key : Word) (s s' : State), textOk text = true →
    ∃ t cipher, encryptText text key.toNat s = .ok (t, cipher) ∧ t.errNoKey = s.errNoKey ∧
      (∃ t', encryptText text key.toNat s' = .ok (t', cipher) ∧ t'.errNoKey = s'.errNoKey) ∧
      (∃ u, decryptText cipher key.toNat t = .ok (u, text ++ List.replicate ((8 - text.length % 8) % 8) 127) ∧
        u.errNoKey = s.errNoKey ∧
        (text ≠ [] → s.errNoKey = false → GoodFinal t = true ∧ GoodFinal u = true)) ∧
      (text.length % 8 = 0 → ∃ u, decryptText cipher key.toNat t = .ok (u, text)) ∧
      (text = [] → cipher = [] ∧ ∃ u, decryptText [] key.toNat s' = .ok (u, []))

/-- The host's refusals (R207): a code point above 255 fails the whole call, and so does a key integer that does not fit the
port; no command is issued and nothing is truncated. How a failure is reported, and that the text is checked before the key, is
the model's choice (assumption log entry 12). -/
def Obligations.HostRefusals : Prop :=
  ∀ (text : List Nat) (key : Int) (s : State),
    ((∃ c ∈ text, 255 < c) →
      encryptText text key s = .error .encodingError ∧ decryptText text key s = .error .encodingError) ∧
    ((∀ c ∈ text, c ≤ 255) → key < 0 ∨ 2 ^ 64 ≤ key →
      encryptText text key s = .error .keyOutOfRange ∧ decryptText text key s = .error .keyOutOfRange)

/-- Spreading the blocks of a message over several cores in consecutive parts, the cores in any states, gives the results of one
core in input order (R210, R232); each core ends in a good final state exactly if it did not start faulted (R225; `GoodFinal` is
assumption log entry 7). That the cores run one after the other is the model's choice (assumption log entry 16). Parts that
interleave: `AnyPlanGivesSameResults`. -/
def Obligations.SpreadBlocksGiveSameResults : Prop :=
  ∀ (key : Word) (parts : List (State × List Word)),
    (∃ cores, spreadBlocks .enc key parts =
      .ok (cores, (parts.flatMap fun part => part.2).map fun b => desBlock (keySchedule key) (vec64 b) .encrypt) ∧
      cores.map GoodFinal = parts.map fun part => !part.1.errNoKey) ∧
    (∃ cores, spreadBlocks .dec key parts =
      .ok (cores, (parts.flatMap fun part => part.2).map fun b => desBlock (keySchedule key) (vec64 b) .decrypt) ∧
      cores.map GoodFinal = parts.map fun part => !part.1.errNoKey)

/-- A rendered line is read back as itself; `NOP` is written without its data and read with data 0 (R95). The blanks and the
capitals of the rendering are the model's choice (assumption log entry 11). -/
def Obligations.AssemblerReadsWhatItWrites : Prop :=
  ∀ line : Line, parseLine (renderLine line) = some (match line with | .command (.nop _) => .command (.nop 0#64) | other => other)

/-- Spreading the blocks of a message over several cores by any plan, consecutive or interleaved, the cores in any states: with
the results put back in input order the whole equals the one core's `encrypt` and `decrypt` of R205 and R206, and each core ends
in a good final state (`GoodFinal`, assumption log entry 7) exactly if it did not start faulted (R210, R232, R225). That the
cores run one after the other is the model's choice (assumption log entry 16). -/
def Obligations.AnyPlanGivesSameResults : Prop :=
  ∀ (text : List Nat) (key : Word) (s : State) (cores : List State) (plan : List (Fin cores.length × Word)),
    textOk text = true → (plan.map fun entry => entry.2) = cutBlocks text →
    (∃ after results, spreadPlan .enc key cores plan = .ok (after, results) ∧
      results = ((cutBlocks text).map fun b => desBlock (keySchedule key) (vec64 b) .encrypt) ∧
      (∃ t, encryptText text key.toNat s = .ok (t, blocksToText results)) ∧
      after.map GoodFinal = cores.map fun core => !core.errNoKey) ∧
    (∃ after results, spreadPlan .dec key cores plan = .ok (after, results) ∧
      results = ((cutBlocks text).map fun b => desBlock (keySchedule key) (vec64 b) .decrypt) ∧
      (∃ t, decryptText text key.toNat s = .ok (t, blocksToText results)) ∧
      after.map GoodFinal = cores.map fun core => !core.errNoKey)

/-- A faulted core (R225; `GoodFinal` is assumption log entry 7): no program of commands clears `ERR_NOKEY` or ends in a good
final state, further block commands without a key included; beside the flag everything is as on a core that was not faulted, so
that a later `LDKEY` loads its key and later block commands give correct results; a reset edge clears the flag. The host layer
is the model's form of R95 and R96 (assumption log entry 12). -/
def Obligations.FaultedCoreGoesOnNeverGood : Prop :=
  ∀ (program : List Instr) (s : State), s.phase = .idle → s.errNoKey = true →
    (∃ t u,
      runLines (program.map Line.command ++ [.wait]) s = .ok (t, []) ∧
      runLines (program.map Line.command ++ [.wait]) { s with errNoKey := false } = .ok (u, []) ∧
      t = { u with errNoKey := true } ∧ RunEnded t = true ∧ Faulted t = true ∧ GoodFinal t = false) ∧
    (∃ t, step (withPorts s assertingReset) = .next t ∧ t.errNoKey = false)

/-- A run of commands after a reset ends in a good final state exactly when no block command comes before the first `LDKEY`, and
it has gone wrong exactly when its final state is not good (R225, R260; `GoodFinal` is assumption log entry 7). The host layer
is the model's form of R95 and R96 (assumption log entry 12). -/
def Obligations.RunEndsGoodExactlyWithKey : Prop :=
  ∀ (program : List Instr) (s : State),
    ∃ t, runLines (.reset :: program.map Line.command ++ [.wait]) s = .ok (t, []) ∧
      GoodFinal t = !BlockBeforeKey program ∧ WentWrong (observe t []) = !GoodFinal t
end

