-- ==== Sys2Proof/Laws/Cipher.lean ====
section
/-! SUPPORT. One lemma for each pure function of the cipher that the statements build on: an index of its result, or its
recursion equation (R131, R136, R153, R154, R175). -/

namespace Sys2Proof.Machine

/-- Index `i` of a rotated half (R131). -/
theorem rotl28_getMsbD (v : KeyHalf) (s i : Nat) (hi : i < 28) : (rotl28 v s).getMsbD i = v.getMsbD ((i + s) % 28) := by
  simp [rotl28, BitVec.getMsbD_rotateLeft, hi, Nat.add_comm]

theorem halvesAfter_zero (key : Word) : halvesAfter key 0 = initialHalves key := rfl

/-- One more round of the schedule (R136). -/
theorem halvesAfter_succ (key : Word) (i : Fin 16) :
    halvesAfter key (i.val + 1) = rotateHalves (halvesAfter key i.val) (shiftAmount i) := by
  unfold halvesAfter shiftAmount
  rw [List.take_succ_eq_append_getElem (show i.val < shiftTable.length from i.isLt), List.foldl_append]
  rfl

/-- Round key `i` of a schedule (R136). -/
theorem keySchedule_getElem (key : Word) (i : Fin 16) : (keySchedule key)[i] = selectKey (halvesAfter key (i.val + 1)) := by
  simp [keySchedule]

/-- Index `i` of chunk `j` (R153). -/
theorem chunk_getMsbD (m48 : Vec 48) (j : Fin 8) (i : Nat) (hi : i < 6) :
    (chunk m48 j).getMsbD i = m48.getMsbD (6 * j.val + i) := by
  have hj : 6 * j.val + i < 48 := by omega
  have hb : (42 - 6 * j.val) + (6 - 1 - i) = 48 - 1 - (6 * j.val + i) := by omega
  have ht : 6 - 1 - i < 6 := by omega
  rw [BitVec.getMsbD_eq_getLsbD, BitVec.getMsbD_eq_getLsbD]
  simp only [chunk, BitVec.getLsbD_extractLsb', hi, hj, hb, ht, decide_true, Bool.true_and]

/-- Concatenation of eight 4-bit vectors, by index. -/
theorem getMsbD_eightNibbles (f : Fin 8 → BitVec 4) (j : Fin 8) (i : Nat) (hi : i < 4) :
    (f 0 ++ f 1 ++ f 2 ++ f 3 ++ f 4 ++ f 5 ++ f 6 ++ f 7 : BitVec 32).getMsbD (4 * j.val + i) = (f j).getMsbD i := by
  have append (n k : Nat) (a : BitVec n) (b : BitVec k) (x : Nat) :
      (a ++ b).getMsbD x = if n ≤ x then b.getMsbD (x - n) else a.getMsbD x := BitVec.getMsbD_append
  refine (append _ _ (f 0 ++ f 1 ++ f 2 ++ f 3 ++ f 4 ++ f 5 ++ f 6) (f 7) _).trans ?_
  rw [append, append, append, append, append, append]
  fin_cases j <;> dsimp only <;> interval_cases i <;> rfl

/-- Nibble `j` of a substitution (R154). -/
theorem substitute_getMsbD (m48 : Vec 48) (j : Fin 8) (i : Nat) (hi : i < 4) :
    (substitute m48).getMsbD (4 * j.val + i) = (substituteChunk m48 j).getMsbD i :=
  getMsbD_eightNibbles (substituteChunk m48) j i hi

theorem blockHalvesAfter_zero (ks : Vector RoundKey 16) (b : Block) (dir : Dir) :
    blockHalvesAfter ks b dir 0 = initialBlockHalves b := by
  simp [blockHalvesAfter]

/-- One more round of the block function (R175). -/
theorem blockHalvesAfter_succ (ks : Vector RoundKey 16) (b : Block) (dir : Dir) (n : Fin 16) :
    blockHalvesAfter ks b dir (n.val + 1) = roundStep ks dir (blockHalvesAfter ks b dir n.val) n := by
  unfold blockHalvesAfter
  rw [List.take_succ_eq_append_getElem (show n.val < (List.finRange 16).length from by simp), List.foldl_append]
  simp

end Sys2Proof.Machine
end

