-- ==== Sys2Proof/Laws/State.lean ====
section
/-! SUPPORT. One lemma per register per update of the state: what the update makes of the register, or that it leaves it alone.
Proofs cite these instead of unfolding a record update. -/

namespace Sys2Proof.Machine

@[simp] theorem writeKey_phase (s : State) (i : Fin 16) (rk : RoundKey) : (writeKey s i rk).phase = s.phase := rfl
@[simp] theorem writeKey_cnt (s : State) (i : Fin 16) (rk : RoundKey) : (writeKey s i rk).cnt = s.cnt := rfl
@[simp] theorem writeKey_dir (s : State) (i : Fin 16) (rk : RoundKey) : (writeKey s i rk).dir = s.dir := rfl
@[simp] theorem writeKey_keyValid (s : State) (i : Fin 16) (rk : RoundKey) : (writeKey s i rk).keyValid = s.keyValid := rfl
@[simp] theorem writeKey_outValid (s : State) (i : Fin 16) (rk : RoundKey) : (writeKey s i rk).outValid = s.outValid := rfl
@[simp] theorem writeKey_errNoKey (s : State) (i : Fin 16) (rk : RoundKey) : (writeKey s i rk).errNoKey = s.errNoKey := rfl
@[simp] theorem writeKey_k (s : State) (i : Fin 16) (rk : RoundKey) : (writeKey s i rk).k = s.k.set i rk := rfl
@[simp] theorem writeKey_c (s : State) (i : Fin 16) (rk : RoundKey) : (writeKey s i rk).c = s.c := rfl
@[simp] theorem writeKey_d (s : State) (i : Fin 16) (rk : RoundKey) : (writeKey s i rk).d = s.d := rfl
@[simp] theorem writeKey_l (s : State) (i : Fin 16) (rk : RoundKey) : (writeKey s i rk).l = s.l := rfl
@[simp] theorem writeKey_r (s : State) (i : Fin 16) (rk : RoundKey) : (writeKey s i rk).r = s.r := rfl
@[simp] theorem writeKey_out (s : State) (i : Fin 16) (rk : RoundKey) : (writeKey s i rk).out = s.out := rfl
@[simp] theorem writeKey_inputs (s : State) (i : Fin 16) (rk : RoundKey) : (writeKey s i rk).inputs = s.inputs := rfl

@[simp] theorem raiseNoKey_phase (s : State) : (raiseNoKey s).phase = s.phase := rfl
@[simp] theorem raiseNoKey_cnt (s : State) : (raiseNoKey s).cnt = s.cnt := rfl
@[simp] theorem raiseNoKey_dir (s : State) : (raiseNoKey s).dir = s.dir := rfl
@[simp] theorem raiseNoKey_keyValid (s : State) : (raiseNoKey s).keyValid = s.keyValid := rfl
@[simp] theorem raiseNoKey_outValid (s : State) : (raiseNoKey s).outValid = s.outValid := rfl
@[simp] theorem raiseNoKey_errNoKey (s : State) : (raiseNoKey s).errNoKey = true := rfl
@[simp] theorem raiseNoKey_k (s : State) : (raiseNoKey s).k = s.k := rfl
@[simp] theorem raiseNoKey_c (s : State) : (raiseNoKey s).c = s.c := rfl
@[simp] theorem raiseNoKey_d (s : State) : (raiseNoKey s).d = s.d := rfl
@[simp] theorem raiseNoKey_l (s : State) : (raiseNoKey s).l = s.l := rfl
@[simp] theorem raiseNoKey_r (s : State) : (raiseNoKey s).r = s.r := rfl
@[simp] theorem raiseNoKey_out (s : State) : (raiseNoKey s).out = s.out := rfl
@[simp] theorem raiseNoKey_inputs (s : State) : (raiseNoKey s).inputs = s.inputs := rfl

@[simp] theorem resetEdge_phase (s : State) : (resetEdge s).phase = .idle := rfl
@[simp] theorem resetEdge_cnt (s : State) : (resetEdge s).cnt = 0 := rfl
@[simp] theorem resetEdge_dir (s : State) : (resetEdge s).dir = .encrypt := rfl
@[simp] theorem resetEdge_keyValid (s : State) : (resetEdge s).keyValid = false := rfl
@[simp] theorem resetEdge_outValid (s : State) : (resetEdge s).outValid = false := rfl
@[simp] theorem resetEdge_errNoKey (s : State) : (resetEdge s).errNoKey = false := rfl
@[simp] theorem resetEdge_k (s : State) : (resetEdge s).k = Vector.replicate 16 0#48 := rfl
@[simp] theorem resetEdge_c (s : State) : (resetEdge s).c = 0#28 := rfl
@[simp] theorem resetEdge_d (s : State) : (resetEdge s).d = 0#28 := rfl
@[simp] theorem resetEdge_l (s : State) : (resetEdge s).l = 0#32 := rfl
@[simp] theorem resetEdge_r (s : State) : (resetEdge s).r = 0#32 := rfl
@[simp] theorem resetEdge_out (s : State) : (resetEdge s).out = 0#64 := rfl
@[simp] theorem resetEdge_inputs (s : State) : (resetEdge s).inputs = s.inputs := rfl

@[simp] theorem popInputs_phase (s : State) : (popInputs s).phase = s.phase := rfl
@[simp] theorem popInputs_cnt (s : State) : (popInputs s).cnt = s.cnt := rfl
@[simp] theorem popInputs_dir (s : State) : (popInputs s).dir = s.dir := rfl
@[simp] theorem popInputs_keyValid (s : State) : (popInputs s).keyValid = s.keyValid := rfl
@[simp] theorem popInputs_outValid (s : State) : (popInputs s).outValid = s.outValid := rfl
@[simp] theorem popInputs_errNoKey (s : State) : (popInputs s).errNoKey = s.errNoKey := rfl
@[simp] theorem popInputs_k (s : State) : (popInputs s).k = s.k := rfl
@[simp] theorem popInputs_c (s : State) : (popInputs s).c = s.c := rfl
@[simp] theorem popInputs_d (s : State) : (popInputs s).d = s.d := rfl
@[simp] theorem popInputs_l (s : State) : (popInputs s).l = s.l := rfl
@[simp] theorem popInputs_r (s : State) : (popInputs s).r = s.r := rfl
@[simp] theorem popInputs_out (s : State) : (popInputs s).out = s.out := rfl
@[simp] theorem popInputs_inputs (s : State) : (popInputs s).inputs = s.inputs.tail := rfl

@[simp] theorem withCommandWord_phase (s : State) (cw : CommandWord) : (withCommandWord s cw).phase = .idle := rfl
@[simp] theorem withCommandWord_cnt (s : State) (cw : CommandWord) : (withCommandWord s cw).cnt = 0 := rfl
@[simp] theorem withCommandWord_dir (s : State) (cw : CommandWord) : (withCommandWord s cw).dir = s.dir := rfl
@[simp] theorem withCommandWord_keyValid (s : State) (cw : CommandWord) : (withCommandWord s cw).keyValid = s.keyValid := rfl
@[simp] theorem withCommandWord_outValid (s : State) (cw : CommandWord) : (withCommandWord s cw).outValid = s.outValid := rfl
@[simp] theorem withCommandWord_errNoKey (s : State) (cw : CommandWord) : (withCommandWord s cw).errNoKey = s.errNoKey := rfl
@[simp] theorem withCommandWord_k (s : State) (cw : CommandWord) : (withCommandWord s cw).k = s.k := rfl
@[simp] theorem withCommandWord_c (s : State) (cw : CommandWord) : (withCommandWord s cw).c = s.c := rfl
@[simp] theorem withCommandWord_d (s : State) (cw : CommandWord) : (withCommandWord s cw).d = s.d := rfl
@[simp] theorem withCommandWord_l (s : State) (cw : CommandWord) : (withCommandWord s cw).l = s.l := rfl
@[simp] theorem withCommandWord_r (s : State) (cw : CommandWord) : (withCommandWord s cw).r = s.r := rfl
@[simp] theorem withCommandWord_out (s : State) (cw : CommandWord) : (withCommandWord s cw).out = s.out := rfl
@[simp] theorem withCommandWord_inputs (s : State) (cw : CommandWord) : (withCommandWord s cw).inputs = presenting cw :: s.inputs.tail := rfl

@[simp] theorem acceptKey_phase (key : Word) (s : State) : (acceptKey key s).phase = .ks := rfl
@[simp] theorem acceptKey_cnt (key : Word) (s : State) : (acceptKey key s).cnt = 0 := rfl
@[simp] theorem acceptKey_dir (key : Word) (s : State) : (acceptKey key s).dir = s.dir := rfl
@[simp] theorem acceptKey_keyValid (key : Word) (s : State) : (acceptKey key s).keyValid = false := rfl
@[simp] theorem acceptKey_outValid (key : Word) (s : State) : (acceptKey key s).outValid = s.outValid := rfl
@[simp] theorem acceptKey_errNoKey (key : Word) (s : State) : (acceptKey key s).errNoKey = s.errNoKey := rfl
@[simp] theorem acceptKey_k (key : Word) (s : State) : (acceptKey key s).k = s.k := rfl
@[simp] theorem acceptKey_c (key : Word) (s : State) : (acceptKey key s).c = (initialHalves key).1 := rfl
@[simp] theorem acceptKey_d (key : Word) (s : State) : (acceptKey key s).d = (initialHalves key).2 := rfl
@[simp] theorem acceptKey_l (key : Word) (s : State) : (acceptKey key s).l = s.l := rfl
@[simp] theorem acceptKey_r (key : Word) (s : State) : (acceptKey key s).r = s.r := rfl
@[simp] theorem acceptKey_out (key : Word) (s : State) : (acceptKey key s).out = s.out := rfl
@[simp] theorem acceptKey_inputs (key : Word) (s : State) : (acceptKey key s).inputs = s.inputs := rfl

@[simp] theorem ipTransition_phase (dir : Dir) (block : Word) (s : State) : (ipTransition dir block s).phase = .rnd := rfl
@[simp] theorem ipTransition_cnt (dir : Dir) (block : Word) (s : State) : (ipTransition dir block s).cnt = 0 := rfl
@[simp] theorem ipTransition_dir (dir : Dir) (block : Word) (s : State) : (ipTransition dir block s).dir = dir := rfl
@[simp] theorem ipTransition_keyValid (dir : Dir) (block : Word) (s : State) : (ipTransition dir block s).keyValid = s.keyValid := rfl
@[simp] theorem ipTransition_outValid (dir : Dir) (block : Word) (s : State) : (ipTransition dir block s).outValid = false := rfl
@[simp] theorem ipTransition_errNoKey (dir : Dir) (block : Word) (s : State) : (ipTransition dir block s).errNoKey = s.errNoKey := rfl
@[simp] theorem ipTransition_k (dir : Dir) (block : Word) (s : State) : (ipTransition dir block s).k = s.k := rfl
@[simp] theorem ipTransition_c (dir : Dir) (block : Word) (s : State) : (ipTransition dir block s).c = s.c := rfl
@[simp] theorem ipTransition_d (dir : Dir) (block : Word) (s : State) : (ipTransition dir block s).d = s.d := rfl
@[simp] theorem ipTransition_l (dir : Dir) (block : Word) (s : State) : (ipTransition dir block s).l = (initialBlockHalves (blockVector block)).1 := rfl
@[simp] theorem ipTransition_r (dir : Dir) (block : Word) (s : State) : (ipTransition dir block s).r = (initialBlockHalves (blockVector block)).2 := rfl
@[simp] theorem ipTransition_out (dir : Dir) (block : Word) (s : State) : (ipTransition dir block s).out = s.out := rfl
@[simp] theorem ipTransition_inputs (dir : Dir) (block : Word) (s : State) : (ipTransition dir block s).inputs = s.inputs := rfl

@[simp] theorem finalTransition_phase (s : State) : (finalTransition s).phase = .idle := rfl
@[simp] theorem finalTransition_cnt (s : State) : (finalTransition s).cnt = s.cnt := rfl
@[simp] theorem finalTransition_dir (s : State) : (finalTransition s).dir = s.dir := rfl
@[simp] theorem finalTransition_keyValid (s : State) : (finalTransition s).keyValid = s.keyValid := rfl
@[simp] theorem finalTransition_outValid (s : State) : (finalTransition s).outValid = true := rfl
@[simp] theorem finalTransition_errNoKey (s : State) : (finalTransition s).errNoKey = s.errNoKey := rfl
@[simp] theorem finalTransition_k (s : State) : (finalTransition s).k = s.k := rfl
@[simp] theorem finalTransition_c (s : State) : (finalTransition s).c = s.c := rfl
@[simp] theorem finalTransition_d (s : State) : (finalTransition s).d = s.d := rfl
@[simp] theorem finalTransition_l (s : State) : (finalTransition s).l = s.l := rfl
@[simp] theorem finalTransition_r (s : State) : (finalTransition s).r = s.r := rfl
@[simp] theorem finalTransition_out (s : State) : (finalTransition s).out = finalBlock (s.l, s.r) := rfl
@[simp] theorem finalTransition_inputs (s : State) : (finalTransition s).inputs = s.inputs := rfl

@[simp] theorem keyTransition_phase (s : State) : (keyTransition s).phase = if s.cnt = 15 then .idle else s.phase := by
  unfold keyTransition; dsimp only; split <;> rfl
@[simp] theorem keyTransition_cnt (s : State) : (keyTransition s).cnt = if s.cnt = 15 then 0 else s.cnt + 1 := by
  unfold keyTransition; dsimp only; split <;> rfl
@[simp] theorem keyTransition_dir (s : State) : (keyTransition s).dir = s.dir := by
  unfold keyTransition; dsimp only; split <;> rfl
@[simp] theorem keyTransition_keyValid (s : State) : (keyTransition s).keyValid = if s.cnt = 15 then true else s.keyValid := by
  unfold keyTransition; dsimp only; split <;> rfl
@[simp] theorem keyTransition_outValid (s : State) : (keyTransition s).outValid = s.outValid := by
  unfold keyTransition; dsimp only; split <;> rfl
@[simp] theorem keyTransition_errNoKey (s : State) : (keyTransition s).errNoKey = s.errNoKey := by
  unfold keyTransition; dsimp only; split <;> rfl
@[simp] theorem keyTransition_k (s : State) : (keyTransition s).k = s.k.set s.cnt (selectKey (rotateHalves (s.c, s.d) (shiftAmount s.cnt))) := by
  unfold keyTransition; dsimp only; split <;> rfl
@[simp] theorem keyTransition_c (s : State) : (keyTransition s).c = rotl28 s.c (shiftAmount s.cnt) := by
  unfold keyTransition; dsimp only; split <;> rfl
@[simp] theorem keyTransition_d (s : State) : (keyTransition s).d = rotl28 s.d (shiftAmount s.cnt) := by
  unfold keyTransition; dsimp only; split <;> rfl
@[simp] theorem keyTransition_l (s : State) : (keyTransition s).l = s.l := by
  unfold keyTransition; dsimp only; split <;> rfl
@[simp] theorem keyTransition_r (s : State) : (keyTransition s).r = s.r := by
  unfold keyTransition; dsimp only; split <;> rfl
@[simp] theorem keyTransition_out (s : State) : (keyTransition s).out = s.out := by
  unfold keyTransition; dsimp only; split <;> rfl
@[simp] theorem keyTransition_inputs (s : State) : (keyTransition s).inputs = s.inputs := by
  unfold keyTransition; dsimp only; split <;> rfl

@[simp] theorem roundTransition_phase (s : State) : (roundTransition s).phase = if s.cnt = 15 then .fp else s.phase := by
  unfold roundTransition; dsimp only; split <;> rfl
@[simp] theorem roundTransition_cnt (s : State) : (roundTransition s).cnt = if s.cnt = 15 then 0 else s.cnt + 1 := by
  unfold roundTransition; dsimp only; split <;> rfl
@[simp] theorem roundTransition_dir (s : State) : (roundTransition s).dir = s.dir := by
  unfold roundTransition; dsimp only; split <;> rfl
@[simp] theorem roundTransition_keyValid (s : State) : (roundTransition s).keyValid = s.keyValid := by
  unfold roundTransition; dsimp only; split <;> rfl
@[simp] theorem roundTransition_outValid (s : State) : (roundTransition s).outValid = s.outValid := by
  unfold roundTransition; dsimp only; split <;> rfl
@[simp] theorem roundTransition_errNoKey (s : State) : (roundTransition s).errNoKey = s.errNoKey := by
  unfold roundTransition; dsimp only; split <;> rfl
@[simp] theorem roundTransition_k (s : State) : (roundTransition s).k = s.k := by
  unfold roundTransition; dsimp only; split <;> rfl
@[simp] theorem roundTransition_c (s : State) : (roundTransition s).c = s.c := by
  unfold roundTransition; dsimp only; split <;> rfl
@[simp] theorem roundTransition_d (s : State) : (roundTransition s).d = s.d := by
  unfold roundTransition; dsimp only; split <;> rfl
@[simp] theorem roundTransition_l (s : State) : (roundTransition s).l = s.r := by
  unfold roundTransition; dsimp only; split <;> rfl
@[simp] theorem roundTransition_r (s : State) : (roundTransition s).r = feistel s.r (readKey s (keyIndex s.dir s.cnt)) ^^^ s.l := by
  unfold roundTransition; dsimp only; split <;> rfl
@[simp] theorem roundTransition_out (s : State) : (roundTransition s).out = s.out := by
  unfold roundTransition; dsimp only; split <;> rfl
@[simp] theorem roundTransition_inputs (s : State) : (roundTransition s).inputs = s.inputs := by
  unfold roundTransition; dsimp only; split <;> rfl

@[simp] theorem withPorts_phase (s : State) (p : PortIn) : (withPorts s p).phase = s.phase := rfl
@[simp] theorem withPorts_cnt (s : State) (p : PortIn) : (withPorts s p).cnt = s.cnt := rfl
@[simp] theorem withPorts_dir (s : State) (p : PortIn) : (withPorts s p).dir = s.dir := rfl
@[simp] theorem withPorts_keyValid (s : State) (p : PortIn) : (withPorts s p).keyValid = s.keyValid := rfl
@[simp] theorem withPorts_outValid (s : State) (p : PortIn) : (withPorts s p).outValid = s.outValid := rfl
@[simp] theorem withPorts_errNoKey (s : State) (p : PortIn) : (withPorts s p).errNoKey = s.errNoKey := rfl
@[simp] theorem withPorts_k (s : State) (p : PortIn) : (withPorts s p).k = s.k := rfl
@[simp] theorem withPorts_c (s : State) (p : PortIn) : (withPorts s p).c = s.c := rfl
@[simp] theorem withPorts_d (s : State) (p : PortIn) : (withPorts s p).d = s.d := rfl
@[simp] theorem withPorts_l (s : State) (p : PortIn) : (withPorts s p).l = s.l := rfl
@[simp] theorem withPorts_r (s : State) (p : PortIn) : (withPorts s p).r = s.r := rfl
@[simp] theorem withPorts_out (s : State) (p : PortIn) : (withPorts s p).out = s.out := rfl
@[simp] theorem withPorts_inputs (s : State) (p : PortIn) : (withPorts s p).inputs = p :: s.inputs := rfl

/-- Two states are equal when all their registers and coming inputs are. -/
theorem State.ext_fields {s t : State} (hphase : s.phase = t.phase) (hcnt : s.cnt = t.cnt) (hdir : s.dir = t.dir)
    (hkeyValid : s.keyValid = t.keyValid) (houtValid : s.outValid = t.outValid) (herrNoKey : s.errNoKey = t.errNoKey)
    (hk : s.k = t.k) (hc : s.c = t.c) (hd : s.d = t.d) (hl : s.l = t.l) (hr : s.r = t.r) (hout : s.out = t.out)
    (hinputs : s.inputs = t.inputs) : s = t := by
  cases s
  cases t
  simp_all

end Sys2Proof.Machine
end

