-- ==== Sys2Proof/Laws/Commands.lean ====
section
/-! SUPPORT. What the shared edge operations can do, said once: a command presented in IDLE is accepted, a command presented while
busy is not read, and a step is one of five things (R170, R223). -/

namespace Sys2Proof.Machine

theorem advance_idle {s : State} (h : s.phase = .idle) : advance s = s := by simp [advance, h]
theorem advance_ks {s : State} (h : s.phase = .ks) : advance s = keyTransition s := by simp [advance, h]
theorem advance_rnd {s : State} (h : s.phase = .rnd) : advance s = roundTransition s := by simp [advance, h]
theorem advance_fp {s : State} (h : s.phase = .fp) : advance s = finalTransition s := by simp [advance, h]

@[simp] theorem advance_inputs (s : State) : (advance s).inputs = s.inputs := by
  unfold advance; split <;> simp

theorem presentCommand_idle (accept : State → State) {s : State} (h : s.phase = .idle) :
    presentCommand accept s = accept s := by simp [presentCommand, h]

/-- A command presented while the core is busy is not read: the edge is the phase's own (R255). -/
theorem presentCommand_busy (accept : State → State) {s : State} (h : s.phase ≠ .idle) :
    presentCommand accept s = advance s := by
  unfold presentCommand
  split
  · contradiction
  · rfl
  · rfl
  · rfl

theorem acceptBlock_key (dir : Dir) (block : Word) {s : State} (h : s.keyValid = true) :
    acceptBlock dir block s = ipTransition dir block s := by simp [acceptBlock, h]

theorem acceptBlock_noKey (dir : Dir) (block : Word) {s : State} (h : s.keyValid = false) :
    acceptBlock dir block s = raiseNoKey s := by simp [acceptBlock, h]

/-- While the core is busy every command's edge is the phase's own transition (R255). -/
theorem exec_busy (i : Instr) {s : State} (h : s.phase ≠ .idle) : exec i s = .next (advance s) := by
  cases i <;> simp [exec, execNop, execLdkey, execEnc, execDec, presentCommand_busy _ h]

theorem exec_nop_idle (data : Word) {s : State} (h : s.phase = .idle) : exec (.nop data) s = .next s := by
  simp [exec, execNop, presentCommand_idle _ h]

theorem exec_ldkey_idle (key : Word) {s : State} (h : s.phase = .idle) :
    exec (.ldkey key) s = .next (acceptKey key s) := by
  simp [exec, execLdkey, presentCommand_idle _ h]

theorem exec_enc_idle (block : Word) {s : State} (h : s.phase = .idle) :
    exec (.enc block) s = .next (acceptBlock .encrypt block s) := by
  simp [exec, execEnc, presentCommand_idle _ h]

theorem exec_dec_idle (block : Word) {s : State} (h : s.phase = .idle) :
    exec (.dec block) s = .next (acceptBlock .decrypt block s) := by
  simp [exec, execDec, presentCommand_idle _ h]

/-- An edge at which a command is presented does one of five things: nothing (`NOP`), an `LDKEY`'s acceptance, a block command's
acceptance with a key, the fault NoKey, or, in a busy phase, that phase's transition. -/
theorem exec_cases (i : Instr) (s : State) :
    (s.phase = .idle ∧ (∃ data, i = .nop data) ∧ exec i s = .next s) ∨
    (s.phase = .idle ∧ ∃ key, i = .ldkey key ∧ exec i s = .next (acceptKey key s)) ∨
    (s.phase = .idle ∧ s.keyValid = true ∧
      ∃ dir block, (i = .enc block ∧ dir = .encrypt ∨ i = .dec block ∧ dir = .decrypt) ∧
        exec i s = .next (ipTransition dir block s)) ∨
    (s.phase = .idle ∧ s.keyValid = false ∧ (∃ block, i = .enc block ∨ i = .dec block) ∧
      exec i s = .next (raiseNoKey s)) ∨
    (s.phase ≠ .idle ∧ exec i s = .next (advance s)) := by
  by_cases h : s.phase = .idle
  case neg => exact .inr (.inr (.inr (.inr ⟨h, exec_busy i h⟩)))
  cases i with
  | nop data => exact .inl ⟨h, ⟨data, rfl⟩, exec_nop_idle data h⟩
  | ldkey key => exact .inr (.inl ⟨h, key, rfl, exec_ldkey_idle key h⟩)
  | enc block =>
    cases hk : s.keyValid with
    | true =>
      exact .inr (.inr (.inl ⟨h, rfl, .encrypt, block, .inl ⟨rfl, rfl⟩,
        by rw [exec_enc_idle block h, acceptBlock_key _ _ hk]⟩))
    | false =>
      exact .inr (.inr (.inr (.inl ⟨h, rfl, ⟨block, .inl rfl⟩,
        by rw [exec_enc_idle block h, acceptBlock_noKey _ _ hk]⟩)))
  | dec block =>
    cases hk : s.keyValid with
    | true =>
      exact .inr (.inr (.inl ⟨h, rfl, .decrypt, block, .inr ⟨rfl, rfl⟩,
        by rw [exec_dec_idle block h, acceptBlock_key _ _ hk]⟩))
    | false =>
      exact .inr (.inr (.inr (.inl ⟨h, rfl, ⟨block, .inr rfl⟩,
        by rw [exec_dec_idle block h, acceptBlock_noKey _ _ hk]⟩)))

end Sys2Proof.Machine
end

