-- ==== Sys2Proof/Laws/Encoding.lean ====
section
/-! SUPPORT. What the fields of a command word are (R90) and what the decoder makes of each operation code (R91). -/

namespace Sys2Proof

@[simp] theorem opField_commandWord (op : BitVec 2) (data : Word) : opField (commandWord op data) = op := by
  apply BitVec.eq_of_getLsbD_eq
  intro i hi
  have h := BitVec.getLsbD_append (x := op) (y := data) (i := 64 + i)
  simp only [opField, commandWord, BitVec.getLsbD_extractLsb', hi, decide_true, Bool.true_and]
  exact h.trans (by simp)

@[simp] theorem dataField_commandWord (op : BitVec 2) (data : Word) : dataField (commandWord op data) = data := by
  apply BitVec.eq_of_getLsbD_eq
  intro i hi
  have h := BitVec.getLsbD_append (x := op) (y := data) (i := 0 + i)
  simp only [dataField, commandWord, BitVec.getLsbD_extractLsb', hi, decide_true, Bool.true_and]
  exact h.trans (by simp [hi])

/-- A word is its two fields (R90). -/
theorem commandWord_fields (cw : CommandWord) : commandWord (opField cw) (dataField cw) = cw := by
  apply BitVec.eq_of_getLsbD_eq
  intro i hi
  simp only [commandWord, opField, dataField, BitVec.getLsbD_append, BitVec.getLsbD_extractLsb']
  by_cases h : i < 64
  · simp [h]
  · have h2 : i - 64 < 2 := by omega
    have h3 : 64 + (i - 64) = i := by omega
    simp [h, h2, h3]

@[simp] theorem decodeOp_zero (data : Word) : decodeOp 0#2 data = .nop data := rfl
@[simp] theorem decodeOp_one (data : Word) : decodeOp 1#2 data = .ldkey data := rfl
@[simp] theorem decodeOp_two (data : Word) : decodeOp 2#2 data = .enc data := rfl
@[simp] theorem decodeOp_three (data : Word) : decodeOp 3#2 data = .dec data := rfl

/-- The four values of `op` are all there are (R93). -/
theorem op_cases (op : BitVec 2) : op = 0#2 ∨ op = 1#2 ∨ op = 2#2 ∨ op = 3#2 := by
  revert op; decide

end Sys2Proof
end

