-- ==== Sys2Proof/Laws/Framing.lean ====
section
/-! SUPPORT. The spreading of blocks over several cores, one lemma per function (R210). -/

namespace Sys2Proof.Machine

/-- One more block of a plan goes to core `c` exactly if the plan says so. -/
theorem blocksOfCore_cons {n : Nat} (entry : Fin n × Word) (plan : List (Fin n × Word)) (c : Fin n) :
    blocksOfCore (entry :: plan) c = if entry.1 = c then entry.2 :: blocksOfCore plan c else blocksOfCore plan c := by
  unfold blocksOfCore
  by_cases h : entry.1 = c <;> simp [h]

/-- Dealing in turn leaves out no block and changes no order. -/
theorem dealInTurn_blocks {n : Nat} (hn : 0 < n) (blocks : List Word) :
    (dealInTurn hn blocks).map (fun entry => entry.2) = blocks := by
  simp [dealInTurn, Function.comp_def]

/-- Dealing in turn gives block `q` to core `q mod n`. -/
theorem dealInTurn_core {n : Nat} (hn : 0 < n) (blocks : List Word) (q : Nat) (hq : q < blocks.length) :
    (dealInTurn hn blocks)[q]?.map (fun entry => entry.1.val) = some (q % n) := by
  simp [dealInTurn, hq]

/-- Several cores answer what each answers on its own. -/
theorem runCores_ok (command : Word → Instr) (key : Word) (out : State × List Word → State × List Word)
    (parts : List (State × List Word))
    (h : ∀ part ∈ parts, runLines (messageLines command key part.2 ++ [.wait]) part.1 = .ok (out part)) :
    runCores command key parts = .ok (parts.map out) := by
  induction parts with
  | nil => rfl
  | cons part rest ih =>
    have hrest := ih fun p hp => h p (List.mem_cons_of_mem _ hp)
    simp [runCores, h part (List.mem_cons_self ..), hrest, Except.bind, Except.map]

/-- Putting back in input order what each core made of its part, block by block, gives the blocks of the plan in input order. -/
theorem inInputOrder_blocksOfCore {n : Nat} (f : Word → Word) (plan : List (Fin n × Word)) (results : List (List Word))
    (h : ∀ c : Fin n, results[c.val]? = some ((blocksOfCore plan c).map f)) :
    inInputOrder (plan.map fun entry => entry.1.val) results = .ok (plan.map fun entry => f entry.2) := by
  induction plan generalizing results with
  | nil => rfl
  | cons entry rest ih =>
    have hc := h entry.1
    rw [blocksOfCore_cons, if_pos rfl, List.map_cons] at hc
    have hlen : entry.1.val < results.length := by
      by_contra hge
      rw [List.getElem?_eq_none (by omega)] at hc
      cases hc
    have hset : ∀ c : Fin n,
        (results.set entry.1.val ((blocksOfCore rest entry.1).map f))[c.val]? = some ((blocksOfCore rest c).map f) := by
      intro c
      by_cases hcc : entry.1 = c
      · subst hcc; simp [hlen]
      · have := h c
        rw [blocksOfCore_cons, if_neg hcc] at this
        rw [List.getElem?_set_ne (fun e => hcc (Fin.ext e)), this]
    simp only [List.map_cons, inInputOrder, hc, ih _ hset, Except.map]

end Sys2Proof.Machine
end

