-- ==== Sys2Proof/Laws/Step.lean ====
section
/-! SUPPORT. What one clock edge can do, said once, and the bookkeeping of several edges (R170). -/

namespace Sys2Proof.Machine

/-- A reset edge (R40, R223). -/
theorem step_reset {s : State} (h : (portsNow s).rst = true) : step s = .next (resetEdge (popInputs s)) := by
  simp [step, clockEdge, h]

/-- An edge at which a command is presented. -/
theorem step_command {s : State} (hr : (portsNow s).rst = false) (hv : (portsNow s).cmdValid = true) :
    step s = exec (decode (portWord (portsNow s))) (popInputs s) := by
  simp [step, clockEdge, hr, hv]

/-- An edge at which nothing is presented. -/
theorem step_quiet {s : State} (hr : (portsNow s).rst = false) (hv : (portsNow s).cmdValid = false) :
    step s = .next (advance (popInputs s)) := by
  simp [step, clockEdge, hr, hv]

/-- While the core is busy an edge without reset is the phase's own transition, whatever is on the command ports (R255). -/
theorem step_busy {s : State} (hr : (portsNow s).rst = false) (hb : s.phase ≠ .idle) :
    step s = .next (advance (popInputs s)) := by
  cases hv : (portsNow s).cmdValid with
  | true => rw [step_command hr hv, exec_busy _ (by simpa using hb)]
  | false => exact step_quiet hr hv

/-- One inversion lemma for the step: a reset edge, an idle edge, one of the three acceptances that do something, or the
transition of a busy phase. -/
theorem step_cases (s : State) :
    ((portsNow s).rst = true ∧ step s = .next (resetEdge (popInputs s))) ∨
    ((portsNow s).rst = false ∧ s.phase = .idle ∧ step s = .next (popInputs s)) ∨
    ((portsNow s).rst = false ∧ s.phase = .idle ∧ (portsNow s).cmdValid = true ∧
      ∃ key, decode (portWord (portsNow s)) = .ldkey key ∧ step s = .next (acceptKey key (popInputs s))) ∨
    ((portsNow s).rst = false ∧ s.phase = .idle ∧ (portsNow s).cmdValid = true ∧ s.keyValid = true ∧
      ∃ dir block, (decode (portWord (portsNow s)) = .enc block ∧ dir = .encrypt ∨
          decode (portWord (portsNow s)) = .dec block ∧ dir = .decrypt) ∧
        step s = .next (ipTransition dir block (popInputs s))) ∨
    ((portsNow s).rst = false ∧ s.phase = .idle ∧ (portsNow s).cmdValid = true ∧ s.keyValid = false ∧
      (∃ block, decode (portWord (portsNow s)) = .enc block ∨ decode (portWord (portsNow s)) = .dec block) ∧
      step s = .next (raiseNoKey (popInputs s))) ∨
    ((portsNow s).rst = false ∧ s.phase ≠ .idle ∧ step s = .next (advance (popInputs s))) := by
  cases hr : (portsNow s).rst with
  | true => exact .inl ⟨rfl, step_reset hr⟩
  | false =>
    by_cases hb : s.phase = .idle
    case neg => exact .inr (.inr (.inr (.inr (.inr ⟨rfl, hb, step_busy hr hb⟩))))
    cases hv : (portsNow s).cmdValid with
    | false =>
      have hq : step s = .next (popInputs s) := by
        rw [step_quiet hr hv, advance_idle (by simpa using hb)]
      exact .inr (.inl ⟨rfl, hb, hq⟩)
    | true =>
      have hs := step_command hr hv
      rcases exec_cases (decode (portWord (portsNow s))) (popInputs s) with
        ⟨-, -, he⟩ | ⟨-, key, hi, he⟩ | ⟨-, hk, dir, block, hi, he⟩ | ⟨-, hk, hi, he⟩ | ⟨hn, -⟩
      · exact .inr (.inl ⟨rfl, hb, hs.trans he⟩)
      · exact .inr (.inr (.inl ⟨rfl, hb, rfl, key, hi, hs.trans he⟩))
      · exact .inr (.inr (.inr (.inl ⟨rfl, hb, rfl, by simpa using hk, dir, block, hi, hs.trans he⟩)))
      · exact .inr (.inr (.inr (.inr (.inl ⟨rfl, hb, rfl, by simpa using hk, hi, hs.trans he⟩))))
      · exact absurd (by simpa using hb) hn

@[simp] theorem runEdges_zero (s : State) : runEdges 0 s = .next s := rfl

/-- One edge more at the front. -/
theorem runEdges_succ {s t : State} (n : Nat) (h : step s = .next t) : runEdges (n + 1) s = runEdges n t := by
  simp only [runEdges, h]

/-- Every step answers a next state (R170): nothing faults and nothing is refused. -/
theorem step_next (s : State) : ∃ t, step s = .next t := by
  rcases step_cases s with ⟨-, h⟩ | ⟨-, -, h⟩ | ⟨-, -, -, _, -, h⟩ | ⟨-, -, -, -, _, _, -, h⟩ | ⟨-, -, -, -, -, h⟩ | ⟨-, -, h⟩ <;>
    exact ⟨_, h⟩

/-- Edges add up. -/
theorem runEdges_add {s t : State} (m n : Nat) (h : runEdges m s = .next t) : runEdges (m + n) s = runEdges n t := by
  induction m generalizing s with
  | zero => cases h; simp
  | succ m ih =>
    obtain ⟨u, hu⟩ := step_next s
    rw [Nat.add_right_comm, runEdges_succ _ hu]
    exact ih ((runEdges_succ m hu).symm.trans h)

/-- The machine's own run is the host's (Host/Core.lean). -/
theorem runEdges_eq_run (n : Nat) (s : State) : runEdges n s = Sys2Proof.core.run n s := by
  induction n generalizing s with
  | zero => rfl
  | succ n ih =>
    obtain ⟨t, ht⟩ := step_next s
    have h : Sys2Proof.core.step s = .next t := ht
    rw [runEdges_succ n ht, ih]
    simp only [Host.Core.run, h]
    rfl

@[simp] theorem portsNow_withPorts (s : State) (p : PortIn) : portsNow (withPorts s p) = p := rfl

@[simp] theorem popInputs_withPorts (s : State) (p : PortIn) : popInputs (withPorts s p) = s := rfl

end Sys2Proof.Machine
end

