-- ==== Sys2Proof/Laws/HostDriver.lean ====
section
/-! SUPPORT. What the host's edges do in terms of the core's transitions. -/

namespace Sys2Proof.Machine

@[simp] theorem cmdReady_iff (s : State) : cmdReady s = true ↔ s.phase = .idle := by
  simp [cmdReady, busy]

/-- An edge at which the host presents `p` on a busy core is the phase's own transition (R255). -/
theorem clockWith_busy {p : PortIn} {s : State} (hp : p.rst = false) (hb : s.phase ≠ .idle) :
    clockWith p s = .ok (advance s) := by
  unfold clockWith
  rw [step_busy (by simpa using hp) (by simpa using hb), popInputs_withPorts]

/-- The word on the ports is the word presented. -/
@[simp] theorem portWord_presenting (cw : CommandWord) : portWord (presenting cw) = cw := commandWord_fields cw

@[simp] theorem presenting_rst (cw : CommandWord) : (presenting cw).rst = false := rfl
@[simp] theorem presenting_cmdValid (cw : CommandWord) : (presenting cw).cmdValid = true := rfl
@[simp] theorem presentingNothing_rst : presentingNothing.rst = false := rfl
@[simp] theorem presentingNothing_cmdValid : presentingNothing.cmdValid = false := rfl
@[simp] theorem assertingReset_rst : assertingReset.rst = true := rfl

/-- An edge at which the host presents the command word `cw` with `rst = 0`. -/
theorem clockWith_presenting {cw : CommandWord} {s t : State} (h : exec (decode cw) s = .next t) :
    clockWith (presenting cw) s = .ok t := by
  unfold clockWith
  rw [step_command (by simp) (by simp)]
  simp only [portsNow_withPorts, portWord_presenting, popInputs_withPorts]
  rw [h]

/-- RESET on a core (R40, R96). -/
theorem hostReset_eq (s : State) : hostReset s = .ok (resetEdge s) := by
  unfold hostReset clockWith
  rw [step_reset (by simp), popInputs_withPorts]

/-- WAIT on a ready core takes no edge. -/
theorem hostWait_ready {s : State} (h : s.phase = .idle) : hostWait s = .ok s := by
  simp [hostWait, Config.tBlock, clockUntilReady, cmdReady, busy, h]

end Sys2Proof.Machine
end

