-- ==== Sys2Proof/Laws/PerInstr.lean ====
section
/-! SUPPORT. Statements about every command as syntax, one lemma per constructor. Family `WordFields`: the two fields of a
command's word are its operation code and its operand, and the command is well formed (R90, R91, R92). -/

namespace Sys2Proof.Laws.WordFields

/-- The fields of the command word of `i` (R90 to R92). -/
def Statement (i : Instr) : Prop :=
  opField (encode i) = opcode i ∧ dataField (encode i) = operand i ∧ i.wellFormed = true

theorem nop (data : Word) : Statement (.nop data) := by simp [Statement, encode, opcode, operand, Instr.wellFormed]
theorem ldkey (key : Word) : Statement (.ldkey key) := by simp [Statement, encode, opcode, operand, Instr.wellFormed]
theorem enc (block : Word) : Statement (.enc block) := by simp [Statement, encode, opcode, operand, Instr.wellFormed]
theorem dec (block : Word) : Statement (.dec block) := by simp [Statement, encode, opcode, operand, Instr.wellFormed]

end Sys2Proof.Laws.WordFields
end

