-- ==== Sys2Proof/Laws/Permutation.lean ====
section
/-! SUPPORT. What `permute` does, bit by bit (R110). Everything about the six instances follows from it and from facts about the
constant tables. -/

namespace Sys2Proof.Machine

/-- Output index `i` takes input index `table[i] - 1` (R110). -/
theorem permute_getMsbD {m n : Nat} (v : Vec m) (t : Table m n) (i : Nat) (hi : i < n) :
    (permute v t).getMsbD i = v.getMsbD (t.positions[i]'(by rw [t.length_eq]; exact hi) - 1) := by
  have hlen : i < t.positions.length := by rw [t.length_eq]; exact hi
  simp [permute, List.getD_eq_getElem?_getD, hlen]

/-- Every entry of a table is a position of its input (R51). -/
theorem Table.entry_bounds {m n : Nat} (t : Table m n) (i : Nat) (hi : i < t.positions.length) :
    1 ≤ t.positions[i] ∧ t.positions[i] ≤ m := by
  have h := t.ok
  simp only [tableOk, Bool.and_eq_true, decide_eq_true_eq, List.all_eq_true] at h
  exact h.2 _ (List.getElem_mem hi)

/-- Vectors are equal when they agree at every index. -/
theorem Vec.ext_getMsbD {n : Nat} {a b : Vec n} (h : ∀ i < n, a.getMsbD i = b.getMsbD i) : a = b :=
  BitVec.eq_of_getMsbD_eq h

end Sys2Proof.Machine
end

