-- ==== Sys2Proof/Laws/Vectors.lean ====
section
/-! SUPPORT. Indices of concatenated and split vectors (R8), in the widths of this core. -/

namespace Sys2Proof.Machine

/-- Index `i` of `a ++ b`, two halves of a block. -/
theorem getMsbD_joinHalves (a b : Half) (i : Nat) :
    (joinHalves a b).getMsbD i = if i < 32 then a.getMsbD i else b.getMsbD (i - 32) := by
  have h := BitVec.getMsbD_append (x := a) (y := b) (i := i)
  refine h.trans ?_
  split <;> simp_all

/-- Index `i` of `c ++ d`, two halves of the permuted key. -/
theorem getMsbD_joinKeyHalves (c d : KeyHalf) (i : Nat) :
    (joinKeyHalves c d).getMsbD i = if i < 28 then c.getMsbD i else d.getMsbD (i - 28) := by
  have h := BitVec.getMsbD_append (x := c) (y := d) (i := i)
  refine h.trans ?_
  split <;> simp_all

theorem getMsbD_leftHalf (v : Block) (i : Nat) (hi : i < 32) : (leftHalf v).getMsbD i = v.getMsbD i := by
  rw [BitVec.getMsbD_eq_getLsbD, BitVec.getMsbD_eq_getLsbD]
  simp only [leftHalf, BitVec.getLsbD_extractLsb']
  have h1 : 32 - 1 - i < 32 := by omega
  have h2 : i < 64 := by omega
  have h3 : 32 + (32 - 1 - i) = 64 - 1 - i := by omega
  simp [hi, h1, h2, h3]

theorem getMsbD_rightHalf (v : Block) (i : Nat) (hi : i < 32) : (rightHalf v).getMsbD i = v.getMsbD (32 + i) := by
  rw [BitVec.getMsbD_eq_getLsbD, BitVec.getMsbD_eq_getLsbD]
  simp only [rightHalf, BitVec.getLsbD_extractLsb']
  have h1 : 32 - 1 - i < 32 := by omega
  have h2 : 32 + i < 64 := by omega
  have h3 : 0 + (32 - 1 - i) = 64 - 1 - (32 + i) := by omega
  simp only [hi, h1, h2, h3, decide_true, Bool.true_and]

theorem getMsbD_leftKeyHalf (v : Vec 56) (i : Nat) (hi : i < 28) : (leftKeyHalf v).getMsbD i = v.getMsbD i := by
  rw [BitVec.getMsbD_eq_getLsbD, BitVec.getMsbD_eq_getLsbD]
  simp only [leftKeyHalf, BitVec.getLsbD_extractLsb']
  have h1 : 28 - 1 - i < 28 := by omega
  have h2 : i < 56 := by omega
  have h3 : 28 + (28 - 1 - i) = 56 - 1 - i := by omega
  simp only [hi, h1, h2, h3, decide_true, Bool.true_and]

theorem getMsbD_rightKeyHalf (v : Vec 56) (i : Nat) (hi : i < 28) :
    (rightKeyHalf v).getMsbD i = v.getMsbD (28 + i) := by
  rw [BitVec.getMsbD_eq_getLsbD, BitVec.getMsbD_eq_getLsbD]
  simp only [rightKeyHalf, BitVec.getLsbD_extractLsb']
  have h1 : 28 - 1 - i < 28 := by omega
  have h2 : 28 + i < 56 := by omega
  have h3 : 0 + (28 - 1 - i) = 56 - 1 - (28 + i) := by omega
  simp only [hi, h1, h2, h3, decide_true, Bool.true_and]

/-- The two halves of a block are the block. -/
@[simp] theorem joinHalves_halves (v : Block) : joinHalves (leftHalf v) (rightHalf v) = v := by
  apply BitVec.eq_of_getMsbD_eq
  intro i hi
  rw [getMsbD_joinHalves]
  split
  case isTrue h => exact getMsbD_leftHalf v i h
  case isFalse h =>
    rw [getMsbD_rightHalf v _ (by omega)]
    congr 1
    omega

@[simp] theorem leftHalf_join (a b : Half) : leftHalf (joinHalves a b) = a := by
  apply BitVec.eq_of_getMsbD_eq
  intro i hi
  rw [getMsbD_leftHalf _ _ hi, getMsbD_joinHalves, if_pos hi]

@[simp] theorem rightHalf_join (a b : Half) : rightHalf (joinHalves a b) = b := by
  apply BitVec.eq_of_getMsbD_eq
  intro i hi
  rw [getMsbD_rightHalf _ _ hi, getMsbD_joinHalves, if_neg (by omega)]
  congr 1
  omega

/-- The two halves of the permuted key are the permuted key. -/
@[simp] theorem joinKeyHalves_halves (v : Vec 56) : joinKeyHalves (leftKeyHalf v) (rightKeyHalf v) = v := by
  apply BitVec.eq_of_getMsbD_eq
  intro i hi
  rw [getMsbD_joinKeyHalves]
  split
  case isTrue h => exact getMsbD_leftKeyHalf v i h
  case isFalse h =>
    rw [getMsbD_rightKeyHalf v _ (by omega)]
    congr 1
    omega

end Sys2Proof.Machine
end

