-- ==== Sys2Proof/Tests/Slice0.lean ====
section
/-! SUPPORT. The model's own tests. Expected values are those of spec/95_test_vectors.md and of the examples inside the rules,
named in each comment; nothing here is the model's own output. Then one witness for each statement with hypotheses, at the
boundary values of its clauses. -/

namespace Sys2Proof.Tests

open Sys2Proof Sys2Proof.Machine

/-! ### Well-formedness: every check refuses an ill-formed term -/

theorem test_command_number_too_wide : commandNumberOk (2 ^ 66) = false ∧ commandNumberOk (2 ^ 66 - 1) = true := by decide
theorem test_key_out_of_range : keyOk (2 ^ 64) = false ∧ keyOk (-1) = false ∧ keyOk (2 ^ 64 - 1) = true ∧ keyOk 0 = true := by
  decide
theorem test_text_code_point_256 : textOk [65, 256] = false ∧ textOk [0, 255] = true := by decide
theorem test_table_position_zero : tableOk 4 2 [0, 1] = false := by decide
theorem test_table_position_out_of_input : tableOk 4 2 [5, 1] = false ∧ tableOk 4 2 [4, 1] = true := by decide
theorem test_table_wrong_length : tableOk 4 3 [4, 1] = false := by decide
theorem test_sbox_entry_16 : sboxOk (List.replicate 63 0 ++ [16]) = false ∧ sboxOk (List.replicate 64 15) = true := by decide
theorem test_sbox_wrong_length : sboxOk (List.replicate 63 0) = false := by decide
theorem test_every_command_well_formed : Instr.wellFormed (.ldkey 0x0101010101010101#64) = true := by decide

/-! ### Encoding: words written out from R90 and R91 (95_test_vectors.md 3.7) -/

theorem test_decode_nop : decode 0x000000000DEADBEEF#66 = .nop 0x00000000DEADBEEF#64 := by decide
theorem test_decode_ldkey : decode 0x1133457799BBCDFF1#66 = .ldkey 0x133457799BBCDFF1#64 := by decide
theorem test_decode_enc : decode 0x20123456789ABCDEF#66 = .enc 0x0123456789ABCDEF#64 := by decide
theorem test_decode_dec : decode 0x385E813540F0AB405#66 = .dec 0x85E813540F0AB405#64 := by decide
theorem test_decode_largest : decodeNumber 0x3FFFFFFFFFFFFFFFF = .ok (.dec 0xFFFFFFFFFFFFFFFF#64) := by decide
theorem test_decode_too_wide : decodeNumber 0x40000000000000000 = .error .tooWide := by decide
theorem test_decode_table_rows :
    decodeTableWord 72 0x00000000000000000 = some (.nop 0#64) ∧ decodeTableWord 72 0x10000000000000000 = some (.ldkey 0#64) ∧
    decodeTableWord 72 0x20000000000000000 = some (.enc 0#64) ∧ decodeTableWord 72 0x30000000000000000 = some (.dec 0#64) := by
  decide
theorem test_encode_dec : encode (.dec 0x85E813540F0AB405#64) = 0x385E813540F0AB405#66 := by decide

/-! ### The permutation engine (R110 to R119, 95_test_vectors.md 3.1) -/

theorem test_permute_five_entries :
    permute (0b1011#4) (⟨[4, 1, 1, 3, 2], by decide⟩ : Table 4 5) = 0b11110#5 := by decide +kernel
theorem test_ip : ip 0x8000000000000000#64 = 0x0000000001000000#64 ∧ ip 0x0123456789ABCDEF#64 = 0xCC00CCFFF0AAF0AA#64 := by
  decide +kernel
theorem test_fp : fp 0x0000000000000001#64 = 0x0200000000000000#64 ∧ fp 0x0A4CD99543423234#64 = 0x85E813540F0AB405#64 := by
  decide +kernel
theorem test_expand : expand 0x80000000#32 = 0x400000000001#48 ∧ expand 0x89ABCDEF#32 = 0xC53D57E5BF5F#48 := by decide +kernel
theorem test_pperm : pperm 0x00000001#32 = 0x00000800#32 ∧ pperm 0x89ABCDEF#32 = 0x99DE6D6D#32 := by decide +kernel
theorem test_pc1 : pc1 0x0101010101010101#64 = 0#56 ∧ pc1 0x133457799BBCDFF1#64 = 0xF0CCAAF556678F#56 := by decide +kernel
theorem test_pc2 : pc2 0x00800000000000#56 = 0#48 ∧ pc2 0x23456789ABCDEF#56 = 0x921C7095F77B#48 := by decide +kernel

/-! ### The key schedule (R131 to R138, 95_test_vectors.md V2 and 3.2) -/

theorem test_rotate : rotl28 0xF0CCAAF#28 1 = 0xE19955F#28 ∧ rotl28 0xC332ABF#28 2 = 0x0CCAAFF#28 := by decide
theorem test_round_keys : (keySchedule 0x133457799BBCDFF1#64).toList =
    [0x1B02EFFC7072#48, 0x79AED9DBC9E5#48, 0x55FC8A42CF99#48, 0x72ADD6DB351D#48,
     0x7CEC07EB53A8#48, 0x63A53E507B2F#48, 0xEC84B7F618BC#48, 0xF78A3AC13BFB#48,
     0xE0DBEBEDE781#48, 0xB1F347BA464F#48, 0x215FD3DED386#48, 0x7571F59467E9#48,
     0x97C5D1FABA41#48, 0x5F43B7F2E73A#48, 0xBF918D3D3F0A#48, 0xCB3D8B0E17F5#48] := by decide +kernel
theorem test_one_key_bit_moves :
    (keySchedule 0x0000000000000002#64)[0] = 0x000000000100#48 ∧ (keySchedule 0x0000000000000002#64)[15] = 0x000000000002#48 := by
  decide +kernel

/-! ### The round (R150 to R158, 95_test_vectors.md V3 and 3.3) -/

theorem test_substitute_chunk_index :
    substitute 0x780000000000#48 = 0x7FA72C4D#32 ∧ substitute 0x040000000000#48 = 0x0FA72C4D#32 := by decide +kernel
theorem test_substitute : substitute 0x6117BA866527#48 = 0x5C82B597#32 ∧ substitute 0xFFFFFFFFFFFF#48 = 0xD9CE3DCB#32 := by
  decide +kernel
theorem test_round : feistelRound 0xCC00CCFF#32 0xF0AAF0AA#32 0x1B02EFFC7072#48 = (0xF0AAF0AA#32, 0xEF4A6544#32) := by
  decide +kernel
theorem test_round_zero : feistelRound 0xFFFFFFFF#32 0#32 0#48 = (0#32, 0x27272443#32) := by decide +kernel

/-! ### The block function (95_test_vectors.md V1, V6, 3.4 and section 5) -/

theorem test_known_answer :
    desBlock (keySchedule 0x133457799BBCDFF1#64) 0x0123456789ABCDEF#64 .encrypt = 0x85E813540F0AB405#64 := by decide +kernel
theorem test_known_answer_backwards :
    desBlock (keySchedule 0x133457799BBCDFF1#64) 0x85E813540F0AB405#64 .decrypt = 0x0123456789ABCDEF#64 := by decide +kernel
theorem test_decrypt_a_plaintext :
    desBlock (keySchedule 0x133457799BBCDFF1#64) 0x0123456789ABCDEF#64 .decrypt = 0xEE0F7C12E0B09338#64 := by decide +kernel
theorem test_published_answer :
    desBlock (keySchedule 0x7CA110454A1A6E57#64) 0x01A1D6D039776742#64 .encrypt = 0x690F5B0D9A26939B#64 := by decide +kernel

/-! ### Single steps -/

/-- The registers a test looks at after one step. -/
def after (o : Host.Outcome State Fault Refusal) (look : State → Bool) : Bool :=
  match o with
  | .next t => look t
  | .fault _ => false
  | .refused _ => false

/-- `NOP` in the reset state leaves the reset state (R176). -/
theorem test_nop_after_reset : step (State.reset.withFetchWord 72 0x000000000DEADBEEF) = .next State.reset := by rfl

/-- The accepting edge of `LDKEY 0x133457799BBCDFF1` (R132). -/
theorem test_ldkey_accepted : after (step (State.reset.withFetchWord 72 0x1133457799BBCDFF1))
    (fun t => t.c == 0xF0CCAAF#28 && t.d == 0x556678F#28 && t.phase == .ks && t.cnt == 0 && !t.keyValid) = true := by
  decide +kernel

/-- The first key-schedule transition (41_key_schedule.md section 4, row 0). -/
theorem test_key_schedule_transition :
    after (step { State.reset with phase := .ks, c := 0xF0CCAAF#28, d := 0x556678F#28 })
      (fun t => t.c == 0xE19955F#28 && t.d == 0xAACCF1E#28 && t.k[0] == 0x1B02EFFC7072#48 && t.cnt == 1 && !t.keyValid) = true := by
  decide +kernel

/-- The last key-schedule transition (41_key_schedule.md section 4, row 15). -/
theorem test_last_key_schedule_transition :
    after (step { State.reset with phase := .ks, cnt := 15, c := 0xF866557#28, d := 0xAAB33C7#28 })
      (fun t => t.c == 0xF0CCAAF#28 && t.k[15] == 0xCB3D8B0E17F5#48 && t.phase == .idle && t.cnt == 0 && t.keyValid) = true := by
  decide +kernel

/-- `ENC` after reset faults NoKey and changes nothing else (R221, program P2 line 2). -/
theorem test_enc_without_key :
    step (State.reset.withFetchWord 72 0x20123456789ABCDEF) = .next { State.reset with errNoKey := true } := by rfl

/-- The IP transition of `ENC 0x0123456789ABCDEF` (R172). -/
theorem test_enc_accepted : after (exec (.enc 0x0123456789ABCDEF#64) { State.reset with keyValid := true, outValid := true })
    (fun t => t.l == 0xCC00CCFF#32 && t.r == 0xF0AAF0AA#32 && t.dir == .encrypt && t.phase == .rnd && !t.outValid) = true := by
  decide +kernel

/-- `DEC 0` after reset faults NoKey (95_test_vectors.md 3.6). -/
theorem test_dec_without_key :
    step (State.reset.withFetchWord 72 0x30000000000000000) = .next { State.reset with errNoKey := true } := by rfl

/-- The IP transition of `DEC 0x85E813540F0AB405` (95_test_vectors.md V6, row 0). -/
theorem test_dec_accepted : after (exec (.dec 0x85E813540F0AB405#64) { State.reset with keyValid := true })
    (fun t => t.l == 0x0A4CD995#32 && t.r == 0x43423234#32 && t.dir == .decrypt && t.phase == .rnd) = true := by
  decide +kernel

/-- Round 16 of decryption reads `K[0]` (95_test_vectors.md V6, row 16). -/
theorem test_last_round_of_decryption :
    after (step { State.reset with
        keyValid := true, phase := .rnd, cnt := 15, dir := .decrypt, k := State.reset.k.set 0 0x1B02EFFC7072#48,
        l := 0xEF4A6544#32, r := 0xF0AAF0AA#32 })
      (fun t => t.l == 0xF0AAF0AA#32 && t.r == 0xCC00CCFF#32 && t.phase == .fp && t.cnt == 0) = true := by
  decide +kernel

/-- The final transition takes the right half first (R174, 95_test_vectors.md V5). -/
theorem test_final_transition :
    after (step { State.reset with keyValid := true, phase := .fp, l := 0x43423234#32, r := 0x0A4CD995#32 })
      (fun t => t.out == 0x85E813540F0AB405#64 && t.outValid && t.phase == .idle) = true := by
  decide +kernel

/-- Reset wins over a command at the same edge (R223, program P4 edge 42). -/
theorem test_reset_wins :
    step (withPorts { State.reset with phase := .ks, cnt := 5, c := 0xFFFFFFF#28, outValid := true }
      ⟨true, true, 2#2, 0x1234#64⟩) = .next State.reset := by rfl

/-- Of the four flags in a key load after a result (R27, program P4 edge 36): not ready, result on show, no key. -/
theorem test_status_during_key_load : status { State.reset with phase := .ks, outValid := true } = 0b0011#4 := by decide

/-! ### The host contract (R200 to R208, 95_test_vectors.md 3.5) and the notation (R95) -/

/-- "Hello, DES!" is two blocks, the second padded with 127 (R201). -/
theorem test_text_to_blocks : textToBlocks [72, 101, 108, 108, 111, 44, 32, 68, 69, 83, 33] =
    .ok [0x48656C6C6F2C2044#64, 0x4553217F7F7F7F7F#64] := by decide +kernel
theorem test_blocks_to_text : blocksToText [0x4142434445464748#64] = [65, 66, 67, 68, 69, 70, 71, 72] := by decide +kernel
theorem test_empty_text : textToBlocks [] = .ok [] := by decide
theorem test_parse_line : parseLine "ENC   0x0123456789ABCDEF     ; CW = 2_0123456789ABCDEF".toList =
    some (.command (.enc 0x0123456789ABCDEF#64)) := by decide +kernel
/-- A comment line holds no command (log entry 11). -/
theorem test_parse_comment_line : parseLine "   ; no command".toList = none := by decide +kernel
/-- Three blocks dealt to two cores: the first and third to core 0; the results interleave again (R210, D18). -/
theorem test_deal_in_turn :
    blocksOfCore (dealInTurn (show 0 < 2 by decide) [1#64, 2#64, 3#64]) 0 = [1#64, 3#64] ∧
    blocksOfCore (dealInTurn (show 0 < 2 by decide) [1#64, 2#64, 3#64]) 1 = [2#64] := by decide
theorem test_in_input_order : inInputOrder [0, 1, 0] [[11#64, 13#64], [12#64]] = .ok [11#64, 12#64, 13#64] := by decide
theorem test_result_missing : inInputOrder [0, 0] [[11#64]] = .error .noResult := by decide
/-- A faulted core is ready and yet no good final state (R225). -/
theorem test_faulted_not_good : RunEnded { State.reset with errNoKey := true } = true ∧
    GoodFinal { State.reset with errNoKey := true } = false ∧ GoodFinal State.reset = true := by decide
theorem test_parse_short_operand : parseLine "ENC 0x0123".toList = none := by decide +kernel

/-! ### Witnesses: every statement's hypotheses can be met -/

/-- A loaded core: the key of the known-answer vector. -/
def keyed : State := keyEffect 0x133457799BBCDFF1#64 State.reset

/-- The ports with `ENC` of the known-answer block. -/
def presentingEnc : PortIn := presenting (encode (.enc 0x0123456789ABCDEF#64))

/-- The ports with `LDKEY` of the known-answer key. -/
def presentingKey : PortIn := presenting (encode (.ldkey 0x133457799BBCDFF1#64))

theorem witness_stepRunsDecodedCommand_command :
    (portsNow (withPorts keyed presentingEnc)).rst = false ∧ (portsNow (withPorts keyed presentingEnc)).cmdValid = true := by
  decide
theorem witness_stepRunsDecodedCommand_nothing : (portsNow keyed).rst = false ∧ (portsNow keyed).cmdValid = false := by decide
theorem witness_stepRunsDecodedCommand_reset : (portsNow (withPorts keyed assertingReset)).rst = true := by decide

theorem witness_placedWordIsRunNext : 66 ≤ 66 ∧ 66 ≤ 72 ∧ 0 < 2 ^ 66 ∧ 0x3FFFFFFFFFFFFFFFF < 2 ^ 66 := by decide

/-- IDLE, nothing accepted. -/
theorem witness_phaseSequence_idle : ∃ t, step keyed = .next t ∧ (portsNow keyed).rst = false ∧ keyed.phase = .idle ∧
    t.phase = .idle ∧ t.cnt = 0 := ⟨_, rfl, rfl, rfl, rfl, rfl⟩
/-- IDLE, `LDKEY` accepted. -/
theorem witness_phaseSequence_key : ∃ t, step (withPorts keyed presentingKey) = .next t ∧
    (portsNow (withPorts keyed presentingKey)).rst = false ∧ t.phase = .ks ∧ t.cnt = 0 := ⟨_, rfl, rfl, rfl, rfl⟩
/-- IDLE, `ENC` accepted with a key. -/
theorem witness_phaseSequence_block : ∃ t, step (withPorts keyed presentingEnc) = .next t ∧
    (portsNow (withPorts keyed presentingEnc)).rst = false ∧ t.phase = .rnd ∧ t.cnt = 0 := ⟨_, rfl, rfl, rfl, rfl⟩
/-- IDLE, `ENC` accepted without a key. -/
theorem witness_phaseSequence_noKey : ∃ t, step (withPorts State.reset presentingEnc) = .next t ∧
    (portsNow (withPorts State.reset presentingEnc)).rst = false ∧ t.phase = .idle ∧ t.errNoKey = true :=
  ⟨_, rfl, rfl, rfl, rfl⟩
theorem witness_phaseSequence_ks15 : ∃ t, step { State.reset with phase := .ks, cnt := 15 } = .next t ∧ t.phase = .idle ∧
    t.cnt = 0 := ⟨_, rfl, rfl, rfl⟩
theorem witness_phaseSequence_ks14 : ∃ t, step { State.reset with phase := .ks, cnt := 14 } = .next t ∧ t.phase = .ks ∧
    t.cnt = 15 := ⟨_, rfl, rfl, rfl⟩
theorem witness_phaseSequence_rnd15 : ∃ t, step { keyed with phase := .rnd, cnt := 15 } = .next t ∧ t.phase = .fp ∧
    t.cnt = 0 := ⟨_, rfl, rfl, rfl⟩
theorem witness_phaseSequence_rnd14 : ∃ t, step { keyed with phase := .rnd, cnt := 14 } = .next t ∧ t.phase = .rnd ∧
    t.cnt = 15 := ⟨_, rfl, rfl, rfl⟩
theorem witness_phaseSequence_fp : ∃ t, step { keyed with phase := .fp } = .next t ∧ t.phase = .idle ∧ t.cnt = 0 :=
  ⟨_, rfl, rfl, rfl⟩

/-- One reset edge, and two. -/
theorem witness_resetEdges : 0 + 1 ≤ [assertingReset].length ∧ (∀ p ∈ [assertingReset].take (0 + 1), p.rst = true) ∧
    1 + 1 ≤ [assertingReset, ⟨true, true, 2#2, 0#64⟩].length ∧
    (∀ p ∈ [assertingReset, ⟨true, true, 2#2, 0#64⟩].take (1 + 1), p.rst = true) := by decide

theorem witness_nopCompletes : State.reset.phase = .idle ∧ keyed.phase = .idle := by decide

theorem witness_ldkeyAccepts : keyed.phase = .idle ∧
    ∀ b < 64, b % 8 ≠ 0 → (0x0101010101010101#64).getLsbD b = (0#64).getLsbD b := by decide

theorem witness_keyScheduleTransition : (∀ cnt : Fin 16,
    ({ State.reset with phase := .ks, cnt := cnt } : State).phase = .ks ∧
    (portsNow { State.reset with phase := .ks, cnt := cnt }).rst = false) := by decide

theorem witness_ldkeyCompletes : keyed.phase = .idle ∧ NoReset 16 keyed ∧
    NoReset 16 { keyed with inputs := List.replicate 16 presentingKey ++ [assertingReset] } := by
  refine ⟨rfl, ?_, ?_⟩ <;> unfold NoReset <;> decide

theorem witness_keyScheduleClosedForm :
    [1, 2, 4, 6, 8, 10, 12, 14, 15, 17, 19, 21, 23, 25, 27, 28][(0 : Fin 16).val]? = some 1 ∧
    [1, 2, 4, 6, 8, 10, 12, 14, 15, 17, 19, 21, 23, 25, 27, 28][(15 : Fin 16).val]? = some 28 := by decide

/-- The four keys of R138 (d): halves all zeros or all ones in every combination. -/
theorem witness_cornerKeys :
    (∀ b < 64, b % 8 ≠ 0 → (0x0101010101010101#64).getLsbD b = (0#64).getLsbD b) ∧
    initialHalves 0x0101010101010101#64 = (0#28, 0#28) ∧ initialHalves 0xFEFEFEFEFEFEFEFE#64 = (0xFFFFFFF#28, 0xFFFFFFF#28) ∧
    initialHalves 0x1F1F1F1F0E0E0E0E#64 = (0#28, 0xFFFFFFF#28) ∧ initialHalves 0xE0E0E0E0F1F1F1F1#64 = (0xFFFFFFF#28, 0#28) := by
  decide +kernel

theorem witness_blockCommandAccepts : keyed.phase = .idle ∧ keyed.keyValid = true := by decide

/-- Both ends of the round count, in both directions. -/
theorem witness_roundTransition :
    ({ keyed with phase := .rnd } : State).phase = .rnd ∧ (portsNow { keyed with phase := .rnd }).rst = false ∧
    (0 : Fin 16).val = (if ({ keyed with phase := .rnd } : State).dir = .encrypt then 0 else 15 - 0) ∧
    (15 : Fin 16).val = (if Dir.encrypt = .encrypt then 15 else 15 - 15) ∧
    (15 : Fin 16).val = (if Dir.decrypt = .encrypt then 0 else 15 - 0) ∧
    (0 : Fin 16).val = (if Dir.decrypt = .encrypt then 15 else 15 - 15) := by decide

theorem witness_finalTransition : ({ keyed with phase := .fp } : State).phase = .fp ∧
    (portsNow { keyed with phase := .fp }).rst = false := by decide

theorem witness_blockFunctionRounds :
    (15 : Fin 16).val = (if Dir.encrypt = .encrypt then (15 : Fin 16).val else 15 - (15 : Fin 16).val) ∧
    (0 : Fin 16).val = (if Dir.decrypt = .encrypt then (15 : Fin 16).val else 15 - (15 : Fin 16).val) := by decide

theorem witness_encCompletes : keyed.phase = .idle ∧ keyed.keyValid = true ∧ NoReset 17 keyed ∧
    State.reset.phase = .idle ∧ State.reset.keyValid = false := by
  refine ⟨rfl, rfl, ?_, rfl, rfl⟩; unfold NoReset; decide

/-- A reset only after the last edge of the command. -/
theorem witness_decCompletes :
    NoReset 17 { keyed with inputs := List.replicate 17 presentingEnc ++ [assertingReset] } ∧ keyed.phase = .idle ∧
    keyed.keyValid = true ∧ State.reset.keyValid = false := by
  refine ⟨?_, rfl, rfl, rfl⟩; unfold NoReset; decide

theorem witness_complementAndEqualKeys : ∀ i j : Fin 16,
    (Vector.replicate 16 0x000000FFFFFF#48)[i] = (Vector.replicate 16 0x000000FFFFFF#48)[j] := by decide

theorem witness_noKeyFaultSetsOnlyItsFlag : State.reset.phase = .idle ∧ State.reset.keyValid = false := by decide

/-- No key load, and a complete one: both sides of the equivalence. -/
theorem witness_keyMissingExactlyBeforeFirstLoad :
    NoReset 1 { State.reset with inputs := [presentingEnc] } ∧
    (∃ t, runEdges 1 { State.reset with inputs := [presentingEnc] } = .next t ∧ t.phase = .idle ∧ t.keyValid = false) ∧
    NoReset 17 { State.reset with inputs := [presentingKey] } ∧
    (∃ t, runEdges 17 { State.reset with inputs := [presentingKey] } = .next t ∧ t.phase = .idle ∧ t.keyValid = true) := by
  refine ⟨?_, ⟨_, rfl, rfl, rfl⟩, ?_, ⟨_, rfl, rfl, rfl⟩⟩ <;> unfold NoReset <;> decide

theorem witness_faultFlagIsSticky :
    (∃ t, step { keyed with errNoKey := true } = .next t ∧ (portsNow { keyed with errNoKey := true }).rst = false ∧
      t.errNoKey = true) ∧
    (∃ t, step (withPorts { keyed with errNoKey := true } assertingReset) = .next t ∧
      (portsNow (withPorts { keyed with errNoKey := true } assertingReset)).rst = true ∧ t.errNoKey = false) :=
  ⟨⟨_, rfl, rfl, rfl⟩, ⟨_, rfl, rfl, rfl⟩⟩

/-- Each event that sets or clears a flag happens at some edge. -/
theorem witness_flagsSetAndCleared :
    (∃ t, step (withPorts keyed presentingKey) = .next t ∧
      acceptedCommand (withPorts keyed presentingKey) = some (.ldkey 0x133457799BBCDFF1#64) ∧ t.keyValid = false) ∧
    (∃ t, step { State.reset with phase := .ks, cnt := 15 } = .next t ∧ t.keyValid = true) ∧
    (∃ t, step (withPorts { keyed with outValid := true } presentingEnc) = .next t ∧
      acceptedCommand (withPorts keyed presentingEnc) = some (.enc 0x0123456789ABCDEF#64) ∧ t.outValid = false) ∧
    (∃ t, step { keyed with phase := .fp } = .next t ∧ t.outValid = true) ∧
    (∃ t, step (withPorts State.reset presentingEnc) = .next t ∧ t.errNoKey = true) :=
  ⟨⟨_, rfl, rfl, rfl⟩, ⟨_, rfl, rfl⟩, ⟨_, rfl, rfl, rfl⟩, ⟨_, rfl, rfl⟩, ⟨_, rfl, rfl⟩⟩

/-- In IDLE, at the last round, and in FP. -/
theorem witness_stepKeepsCounterInv : CounterInv keyed ∧ (∃ t, step keyed = .next t) ∧
    CounterInv { keyed with phase := .rnd, cnt := 15 } ∧ (∃ t, step { keyed with phase := .rnd, cnt := 15 } = .next t) ∧
    CounterInv { keyed with phase := .fp } := by
  refine ⟨?_, ⟨_, rfl⟩, ?_, ⟨_, rfl⟩, ?_⟩ <;> unfold CounterInv <;> decide

/-- A loaded core, and a key load with a result on show. -/
theorem witness_stepKeepsFlagInv : FlagInv keyed ∧ (∃ t, step keyed = .next t) ∧
    FlagInv { State.reset with phase := .ks, cnt := 15, outValid := true } ∧
    (∃ t, step { State.reset with phase := .ks, cnt := 15, outValid := true } = .next t) := by
  refine ⟨?_, ⟨_, rfl⟩, ?_, ⟨_, rfl⟩⟩ <;> unfold FlagInv <;> simp [keyed, keyEffect, State.reset]

/-- A loaded core, and a key load that has only begun. -/
theorem witness_stepKeepsScheduleInv : FlagInv keyed ∧ ScheduleInv keyed ∧ (∃ t, step keyed = .next t) ∧
    ScheduleInv (acceptKey 0x133457799BBCDFF1#64 State.reset) := by
  refine ⟨witness_stepKeepsFlagInv.1, ⟨fun _ => ⟨_, rfl, rfl⟩, fun h => (nomatch h)⟩, ⟨_, rfl⟩, ⟨fun h => (nomatch h), fun _ =>
    ⟨0x133457799BBCDFF1#64, rfl, fun i hi => absurd hi (Nat.not_lt_zero i.val)⟩⟩⟩

/-- Two cores whose unread round keys differ: after reset, and in a key load after three rounds. -/
theorem witness_unreadKeysAreNeverObserved :
    FlagInv State.reset ∧ EqualButUnreadKeys State.reset { State.reset with k := Vector.replicate 16 1#48 } ∧
    FlagInv { State.reset with phase := .ks, cnt := 3 } ∧
    EqualButUnreadKeys { State.reset with phase := .ks, cnt := 3 }
      { State.reset with phase := .ks, cnt := 3, k := State.reset.k.set 3 1#48 } := by
  refine ⟨?_, ⟨rfl, fun h => (nomatch h), fun h => (nomatch h)⟩, ?_, ⟨rfl, fun h => (nomatch h), fun _ => ?_⟩⟩
  · unfold FlagInv; simp [State.reset]
  · unfold FlagInv; simp [State.reset]
  · decide

/-- The four commands, with and without a key. -/
theorem witness_acceptanceFrame :
    (∃ t, exec (.nop 5#64) keyed = .next t) ∧ (∃ t, exec (.ldkey 5#64) keyed = .next t) ∧
    (∃ t, exec (.enc 5#64) keyed = .next t) ∧ (∃ t, exec (.dec 5#64) State.reset = .next t) ∧
    keyed.phase = .idle ∧ keyed.keyValid = true ∧ State.reset.phase = .idle ∧ State.reset.keyValid = false ∧
    isKeyCommand (.nop 5#64) = false ∧ isBlockCommand (.nop 5#64) = false :=
  ⟨⟨_, rfl⟩, ⟨_, rfl⟩, ⟨_, rfl⟩, ⟨_, rfl⟩, rfl, rfl, rfl, rfl, rfl, rfl⟩

/-- An edge that writes `C`, `D`; one that writes a round key; one that writes `L`, `R`, `DIR`; one that writes `OUT`. -/
theorem witness_registerWriters :
    (after (step (withPorts State.reset presentingKey)) fun t => t.c != State.reset.c && t.d != State.reset.d) = true ∧
    (after (step { State.reset with phase := .ks, c := 0xFFFFFFF#28 }) fun t => t.k[0] != State.reset.k[0]) = true ∧
    (after (step (withPorts { State.reset with keyValid := true } (presenting (encode (.dec 0x0123456789ABCDEF#64)))))
      fun t => t.l != 0#32 && t.r != 0#32 && t.dir != .encrypt) = true ∧
    (after (step { State.reset with phase := .fp, l := 1#32 }) fun t => t.out != 0#64) = true := by decide +kernel

theorem witness_busyCoreIgnoresPorts :
    ({ State.reset with phase := .ks } : State).phase ≠ .idle ∧ ({ State.reset with phase := .fp } : State).phase ≠ .idle ∧
    ({ State.reset with phase := .rnd } : State).phase ≠ .idle ∧ presentingEnc.rst = false ∧ presentingNothing.rst = false := by
  decide

theorem witness_idleCoreKeepsEverything : keyed.phase = .idle ∧
    ∀ p ∈ ({ keyed with inputs := [presentingNothing, presentingNothing] } : State).inputs.take 2,
      p.rst = false ∧ p.cmdValid = false := by decide

theorem witness_readyWithinSeventeenEdges : NoReset 17 { keyed with phase := .rnd } ∧ NoReset 17 keyed := by
  constructor <;> unfold NoReset <;> decide

theorem witness_programsRunAtomically : State.reset.phase = .idle ∧ keyed.phase = .idle := by decide

theorem witness_backToBackMessageTiming : keyed.phase = .idle ∧
    ({ keyed with inputs :=
        List.replicate Config.tLdkey presentingKey ++
        [0x0123456789ABCDEF#64].flatMap (fun b => List.replicate Config.tBlock (presenting (encode (.enc b)))) ++
        [assertingReset] } : State).inputs =
      List.replicate Config.tLdkey (presenting (encode (.ldkey 0x133457799BBCDFF1#64))) ++
      [0x0123456789ABCDEF#64].flatMap (fun b => List.replicate Config.tBlock (presenting (encode (.enc b)))) ++
      [assertingReset] := ⟨rfl, rfl⟩

theorem witness_permuteSelectsPositions : ipTable.positions[0]? = some 58 ∧ ipTable.positions[63]? = some 7 := by decide

/-- The first and the last bit of the last chunk; the table of the source's padded way. -/
theorem witness_expansionChunks : 7 < 8 ∧ 5 < 6 ∧ ∃ padded : Table 48 48, padded.positions = eTable.positions :=
  ⟨by decide, by decide, ⟨eTable.positions, by decide⟩, rfl⟩

theorem witness_roundIsInvertible :
    (0xF0AAF0AA#32, 0xEF4A6544#32) = feistelRound 0xCC00CCFF#32 0xF0AAF0AA#32 0x1B02EFFC7072#48 := test_round.symm

/-- A text that needs padding, one that needs none, the empty text, and the largest code point. -/
theorem witness_bitConverterRoundTrip :
    textOk [72, 101, 108, 108, 111] = true ∧ textOk [65, 66, 67, 68, 69, 70, 71, 255] = true ∧ textOk [] = true := by decide

theorem witness_textOperationsAreBlockwise : textOk [72, 101, 108, 108, 111] = true ∧ [72, 101, 108, 108, 111] ≠ [] ∧
    textOk [] = true := by decide

theorem witness_encryptThenDecrypt : textOk [65, 66, 67, 68, 69, 70, 71, 255] = true ∧
    [65, 66, 67, 68, 69, 70, 71, 255].length % 8 = 0 ∧ textOk [65] = true ∧ [65].length % 8 ≠ 0 ∧
    [65] ≠ [] ∧ State.reset.errNoKey = false ∧ textOk [] = true := by decide

/-- A code point one too large; keys one below and one above the range of the port. -/
theorem witness_hostRefusals : (∃ c ∈ [65, 256], 255 < c) ∧ (∀ c ∈ [65, 255], c ≤ 255) ∧
    ((-1 : Int) < 0 ∨ (2 : Int) ^ 64 ≤ -1) ∧ ((2 : Int) ^ 64 < 0 ∨ (2 : Int) ^ 64 ≤ 2 ^ 64) := by decide

/-- A two-block text dealt in turn to a loaded and a faulted core, and a plan that gives every block to the second core. -/
theorem witness_anyPlanGivesSameResults :
    textOk [65, 66, 67, 68, 69, 70, 71, 72, 73] = true ∧
    ((dealInTurn (show 0 < [keyed, { State.reset with errNoKey := true }].length by decide)
      (cutBlocks [65, 66, 67, 68, 69, 70, 71, 72, 73])).map fun entry => entry.2) =
      cutBlocks [65, 66, 67, 68, 69, 70, 71, 72, 73] ∧
    ([((1 : Fin 2), 0x4142434445464748#64), (1, 0x497F7F7F7F7F7F7F#64)].map fun entry => entry.2) =
      cutBlocks [65, 66, 67, 68, 69, 70, 71, 72, 73] := by decide +kernel

theorem witness_faultedCoreGoesOnNeverGood : ({ State.reset with errNoKey := true } : State).phase = .idle ∧
    ({ State.reset with errNoKey := true } : State).errNoKey = true := by decide

end Sys2Proof.Tests
end

section
namespace Sys2Proof.Machine

/-! ### What one edge does: the transition relation

`step_cases` says which successor a state has. The statements about registers and flags also need to know which command was
accepted, the idle edge included, so `Transition` names each case of R170 with its accepted command. It is the step itself
(`step_iff_transition`). -/

/-- The block command with direction `dir` (R177, R178). -/
def blockCommand : Dir → Word → Instr
  | .encrypt => .enc
  | .decrypt => .dec

@[simp] theorem blockCommand_ne_ldkey (dir : Dir) (block key : Word) : blockCommand dir block ≠ .ldkey key := by
  cases dir <;> exact nofun

/-- An `LDKEY` is accepted at the coming edge. Reducible, as `AcceptsBlock` is, so that a condition of the statements that
is written out is this one. -/
abbrev AcceptsKey (s : State) : Prop := ∃ key, acceptedCommand s = some (.ldkey key)

/-- An `ENC` or a `DEC` is accepted at the coming edge. -/
abbrev AcceptsBlock (s : State) : Prop := ∃ block, acceptedCommand s = some (.enc block) ∨ acceptedCommand s = some (.dec block)

/-- One clock edge by its case in R170. -/
inductive Transition (s : State) : State → Prop
  | reset (hr : (portsNow s).rst = true) : Transition s (resetEdge (popInputs s))
  | stay (hr : (portsNow s).rst = false) (hp : s.phase = .idle)
      (ha : ∀ i, acceptedCommand s = some i → ∃ data, i = .nop data) : Transition s (popInputs s)
  | loadKey (key : Word) (hr : (portsNow s).rst = false) (hp : s.phase = .idle)
      (ha : acceptedCommand s = some (.ldkey key)) : Transition s (acceptKey key (popInputs s))
  | startBlock (dir : Dir) (block : Word) (hr : (portsNow s).rst = false) (hp : s.phase = .idle)
      (ha : acceptedCommand s = some (blockCommand dir block)) (hk : s.keyValid = true) :
      Transition s (ipTransition dir block (popInputs s))
  | noKey (dir : Dir) (block : Word) (hr : (portsNow s).rst = false) (hp : s.phase = .idle)
      (ha : acceptedCommand s = some (blockCommand dir block)) (hk : s.keyValid = false) :
      Transition s (raiseNoKey (popInputs s))
  | keyRound (hr : (portsNow s).rst = false) (hp : s.phase = .ks) : Transition s (keyTransition (popInputs s))
  | blockRound (hr : (portsNow s).rst = false) (hp : s.phase = .rnd) : Transition s (roundTransition (popInputs s))
  | final (hr : (portsNow s).rst = false) (hp : s.phase = .fp) : Transition s (finalTransition (popInputs s))

/-- Acceptance needs `rst = 0`, `cmd_valid = 1` and `PHASE = IDLE` (R171). -/
theorem acceptedCommand_eq_some {s : State} {i : Instr} : acceptedCommand s = some i ↔
    (portsNow s).rst = false ∧ (portsNow s).cmdValid = true ∧ s.phase = .idle ∧ decode (portWord (portsNow s)) = i := by
  simp [acceptedCommand, and_assoc]

/-- Nothing is accepted at a reset edge (R171). -/
theorem acceptedCommand_reset {s : State} (hr : (portsNow s).rst = true) : acceptedCommand s = none := by
  simp [acceptedCommand, hr]

/-- Nothing is accepted while the core is busy (R171, R255). -/
theorem acceptedCommand_busy {s : State} (hp : s.phase ≠ .idle) : acceptedCommand s = none := by
  simp [acceptedCommand, hp]

/-- The edge that accepts `i` is `i`'s own. -/
theorem step_accepted {s : State} {i : Instr} (ha : acceptedCommand s = some i) : step s = exec i (popInputs s) := by
  obtain ⟨hr, hv, -, rfl⟩ := acceptedCommand_eq_some.mp ha
  exact step_command hr hv

theorem exec_blockCommand_idle (dir : Dir) (block : Word) {s : State} (h : s.phase = .idle) :
    exec (blockCommand dir block) s = .next (acceptBlock dir block s) := by
  cases dir
  · exact exec_enc_idle block h
  · exact exec_dec_idle block h

/-- An idle core that accepts no command but `NOP` only uses up the port values (R176, R234). -/
theorem step_stay {s : State} (hr : (portsNow s).rst = false) (hp : s.phase = .idle)
    (ha : ∀ i, acceptedCommand s = some i → ∃ data, i = .nop data) : step s = .next (popInputs s) := by
  cases hv : (portsNow s).cmdValid with
  | false => exact (step_quiet hr hv).trans (congrArg _ (advance_idle hp))
  | true =>
    have hacc := acceptedCommand_eq_some.mpr ⟨hr, hv, hp, rfl⟩
    obtain ⟨data, hdata⟩ := ha _ hacc
    rw [step_accepted hacc, hdata, exec_nop_idle data (s := popInputs s) hp]

theorem step_of_transition {s t : State} (h : Transition s t) : step s = .next t := by
  cases h with
  | reset hr => exact step_reset hr
  | stay hr hp ha => exact step_stay hr hp ha
  | loadKey key hr hp ha => exact (step_accepted ha).trans (exec_ldkey_idle key hp)
  | startBlock dir block hr hp ha hk =>
    rw [step_accepted ha, exec_blockCommand_idle dir block (s := popInputs s) hp, acceptBlock_key dir block (s := popInputs s) hk]
  | noKey dir block hr hp ha hk =>
    rw [step_accepted ha, exec_blockCommand_idle dir block (s := popInputs s) hp, acceptBlock_noKey dir block (s := popInputs s) hk]
  | keyRound hr hp => exact (step_busy hr (by simp [hp])).trans (congrArg _ (advance_ks hp))
  | blockRound hr hp => exact (step_busy hr (by simp [hp])).trans (congrArg _ (advance_rnd hp))
  | final hr hp => exact (step_busy hr (by simp [hp])).trans (congrArg _ (advance_fp hp))

/-- An accepted block command starts a block or faults, by `KEY_VALID` (R223). -/
theorem exists_transition_blockCommand {s : State} {dir : Dir} {block : Word} (hr : (portsNow s).rst = false)
    (hp : s.phase = .idle) (ha : acceptedCommand s = some (blockCommand dir block)) : ∃ t, Transition s t := by
  cases hk : s.keyValid with
  | true => exact ⟨_, .startBlock dir block hr hp ha hk⟩
  | false => exact ⟨_, .noKey dir block hr hp ha hk⟩

/-- The cases of R170 leave none out. -/
theorem exists_transition (s : State) : ∃ t, Transition s t := by
  cases hr : (portsNow s).rst with
  | true => exact ⟨_, .reset hr⟩
  | false =>
    cases hp : s.phase with
    | ks => exact ⟨_, .keyRound hr hp⟩
    | rnd => exact ⟨_, .blockRound hr hp⟩
    | fp => exact ⟨_, .final hr hp⟩
    | idle =>
      cases ha : acceptedCommand s with
      | none => exact ⟨_, .stay hr hp (by simp [ha])⟩
      | some i =>
        cases i with
        | nop data => exact ⟨_, .stay hr hp (by simp [ha])⟩
        | ldkey key => exact ⟨_, .loadKey key hr hp ha⟩
        | enc block => exact exists_transition_blockCommand (dir := .encrypt) hr hp ha
        | dec block => exact exists_transition_blockCommand (dir := .decrypt) hr hp ha

/-- The transition relation is the step. -/
theorem step_iff_transition {s t : State} : step s = .next t ↔ Transition s t := by
  refine ⟨fun h => ?_, step_of_transition⟩
  obtain ⟨u, hu⟩ := exists_transition s
  cases h.symm.trans (step_of_transition hu)
  exact hu

theorem not_acceptsKey_of_none {s : State} (ha : acceptedCommand s = none) : ¬AcceptsKey s := by
  simp [AcceptsKey, ha]

theorem not_acceptsBlock_of_none {s : State} (ha : acceptedCommand s = none) : ¬AcceptsBlock s := by
  simp [AcceptsBlock, ha]

theorem not_acceptsKey_of_nop {s : State} (ha : ∀ i, acceptedCommand s = some i → ∃ data, i = .nop data) :
    ¬AcceptsKey s := by
  rintro ⟨key, h⟩
  obtain ⟨data, hdata⟩ := ha _ h
  cases hdata

theorem not_acceptsBlock_of_nop {s : State} (ha : ∀ i, acceptedCommand s = some i → ∃ data, i = .nop data) :
    ¬AcceptsBlock s := by
  rintro ⟨block, h | h⟩
  · obtain ⟨data, hdata⟩ := ha _ h
    cases hdata
  · obtain ⟨data, hdata⟩ := ha _ h
    cases hdata

theorem not_acceptsBlock_of_ldkey {s : State} {key : Word} (ha : acceptedCommand s = some (.ldkey key)) :
    ¬AcceptsBlock s := by
  simp [AcceptsBlock, ha]

theorem acceptsBlock_of_blockCommand {s : State} {dir : Dir} {block : Word}
    (ha : acceptedCommand s = some (blockCommand dir block)) : AcceptsBlock s := by
  cases dir
  · exact ⟨block, .inl ha⟩
  · exact ⟨block, .inr ha⟩

theorem not_acceptsKey_of_blockCommand {s : State} {dir : Dir} {block : Word}
    (ha : acceptedCommand s = some (blockCommand dir block)) : ¬AcceptsKey s := by
  simp [AcceptsKey, ha]

end Sys2Proof.Machine
end

section
namespace Sys2Proof.Machine

/-! ### The key schedule ends where it began -/

/-- Rotations of one half add up (R131). -/
theorem rotl28_rotl28 (v : KeyHalf) (a b : Nat) : rotl28 (rotl28 v a) b = rotl28 v (a + b) := by
  refine Vec.ext_getMsbD fun i hi => ?_
  rw [rotl28_getMsbD _ _ _ hi, rotl28_getMsbD _ _ _ (Nat.mod_lt _ (by decide)), rotl28_getMsbD _ _ _ hi]
  congr 1
  omega

/-- Rotating a half by 28 places leaves it as it was (R137). -/
theorem rotl28_full (v : KeyHalf) : rotl28 v 28 = v := by
  refine Vec.ext_getMsbD fun i hi => ?_
  rw [rotl28_getMsbD _ _ _ hi, Nat.add_mod_right, Nat.mod_eq_of_lt hi]

/-- A list of rotations is one rotation by their sum (R136). -/
theorem foldl_rotateHalves (amounts : List Nat) (cd : KeyHalf × KeyHalf) (a : Nat) :
    amounts.foldl rotateHalves (rotateHalves cd a) = rotateHalves cd (a + amounts.sum) := by
  induction amounts generalizing a with
  | nil => rfl
  | cons b rest ih =>
    have h : rotateHalves (rotateHalves cd a) b = rotateHalves cd (a + b) := by simp [rotateHalves, rotl28_rotl28]
    rw [List.foldl_cons, h, ih, List.sum_cons, Nat.add_assoc]

/-- The sixteen rotations are a full turn: `C(16) = C(0)` and `D(16) = D(0)` (R137). -/
theorem halvesAfter_sixteen (key : Word) : halvesAfter key 16 = initialHalves key := by
  have hturn (cd : KeyHalf × KeyHalf) : rotateHalves cd 28 = cd := by simp [rotateHalves, rotl28_full]
  have hsum : 1 + (shiftTable.tail).sum = 28 := by decide
  calc halvesAfter key 16
      = shiftTable.tail.foldl rotateHalves (rotateHalves (initialHalves key) 1) := rfl
    _ = initialHalves key := by rw [foldl_rotateHalves, hsum, hturn]

/-! ### The counter, and where a round leaves the core -/

/-- The next index, which `keyTransition_cnt` and `roundTransition_cnt` give modulo 16, is the next number below 15. -/
theorem cnt_succ_val {c : Fin 16} (h : c ≠ 15) : c.val < 15 ∧ (c + 1).val = c.val + 1 := by
  have hlt : c < Fin.last 15 := Fin.lt_last_iff_ne_last.mpr h
  exact ⟨hlt, Fin.val_add_one_of_lt hlt⟩

theorem roundTransition_phase_ne_ks {s : State} (hp : s.phase = .rnd) : (roundTransition s).phase ≠ .ks := by
  rw [roundTransition_phase, hp]
  split <;> nofun

/-! ### The flag invariants (R27), one transition at a time -/

theorem flagInv_resetEdge (s : State) : FlagInv (resetEdge s) :=
  ⟨nofun, by simp, by simp, fun _ _ => rfl⟩

theorem flagInv_popInputs {s : State} (h : FlagInv s) : FlagInv (popInputs s) := by
  obtain ⟨hks, hblock, hout, hreset⟩ := h
  exact ⟨hks, hblock, hout, fun hk hp => congrArg popInputs (hreset hk hp)⟩

theorem flagInv_raiseNoKey {s : State} (h : FlagInv s) : FlagInv (raiseNoKey s) := by
  obtain ⟨hks, hblock, hout, hreset⟩ := h
  exact ⟨hks, hblock, hout, fun hk hp => congrArg raiseNoKey (hreset hk hp)⟩

theorem flagInv_acceptKey (key : Word) (s : State) : FlagInv (acceptKey key s) :=
  ⟨fun _ => rfl, by simp, fun _ _ => rfl, nofun⟩

/-- With `KEY_VALID = 1` outside KS every clause of R27 holds. -/
theorem flagInv_of_keyValid {s : State} (hk : s.keyValid = true) (hp : s.phase ≠ .ks) : FlagInv s := by
  simp [FlagInv, hk, hp]

theorem flagInv_keyTransition {s : State} (h : FlagInv s) (hp : s.phase = .ks) : FlagInv (keyTransition s) := by
  by_cases hc : s.cnt = 15
  · exact flagInv_of_keyValid (by simp [hc]) (by simp [hc])
  · have hk : s.keyValid = false := h.1 hp
    simp [FlagInv, hc, hp, hk]

theorem flagInv_step {s t : State} (h : FlagInv s) (hst : Transition s t) : FlagInv t := by
  have hpop := flagInv_popInputs h
  obtain ⟨-, hblock, -⟩ := h
  cases hst with
  | reset => exact flagInv_resetEdge _
  | stay => exact hpop
  | loadKey key => exact flagInv_acceptKey key _
  | startBlock dir block hr hp ha hk => exact flagInv_of_keyValid hk nofun
  | noKey => exact flagInv_raiseNoKey hpop
  | keyRound hr hp => exact flagInv_keyTransition hpop hp
  | blockRound hr hp => exact flagInv_of_keyValid (by simp [hblock, hp]) (roundTransition_phase_ne_ks hp)
  | final hr hp => exact flagInv_of_keyValid (by simp [hblock, hp]) nofun

/-- Settles O29: each transition of R170 keeps the clauses of R27. -/
theorem stepKeepsFlagInv : Obligations.StepKeepsFlagInv :=
  fun _ _ h hst => flagInv_step h (step_iff_transition.mp hst)

/-! ### The schedule invariant (R27, R137, R259) -/

/-- Outside KS the schedule invariant speaks only of `KEY_VALID`, `K`, `C` and `D`. -/
theorem scheduleInv_of_same {s t : State} (h : ScheduleInv s) (hp : t.phase ≠ .ks) (hv : t.keyValid = s.keyValid)
    (hk : t.k = s.k) (hc : t.c = s.c) (hd : t.d = s.d) : ScheduleInv t := by
  obtain ⟨hvalid, -⟩ := h
  refine ⟨fun ht => ?_, fun ht => absurd ht hp⟩
  rw [hk, hc, hd]
  exact hvalid (hv ▸ ht)

theorem scheduleInv_resetEdge (s : State) : ScheduleInv (resetEdge s) := ⟨nofun, nofun⟩

theorem scheduleInv_acceptKey (key : Word) (s : State) : ScheduleInv (acceptKey key s) :=
  ⟨nofun, fun _ => ⟨key, rfl, fun _ hi => absurd hi (Nat.not_lt_zero _)⟩⟩

/-- A key-schedule transition computes the next halves and the next round key of the key being loaded (R133, R134). -/
theorem keyTransition_schedule {s : State} {key : Word} (hcd : (s.c, s.d) = halvesAfter key s.cnt.val)
    (hk : ∀ i : Fin 16, i.val < s.cnt.val → s.k[i] = (keySchedule key)[i]) :
    ((keyTransition s).c, (keyTransition s).d) = halvesAfter key (s.cnt.val + 1) ∧
      ∀ i : Fin 16, i.val < s.cnt.val + 1 → (keyTransition s).k[i] = (keySchedule key)[i] := by
  have hnext : rotateHalves (s.c, s.d) (shiftAmount s.cnt) = halvesAfter key (s.cnt.val + 1) := by
    rw [hcd, halvesAfter_succ]
  refine ⟨by simpa [rotateHalves] using hnext, fun i hi => ?_⟩
  by_cases hcur : i = s.cnt
  · subst hcur
    rw [keySchedule_getElem, ← hnext]
    simp
  · have hne : s.cnt.val ≠ i.val := fun h => hcur (Fin.ext h.symm)
    rw [← hk i (by omega)]
    simp [Vector.getElem_set_ne, hne]

/-- The sixteenth key-schedule transition completes the schedule, with the halves back at their start (R135, R137). -/
theorem scheduleInv_keyTransition {s : State} (h : ScheduleInv s) (hv : s.keyValid = false) (hp : s.phase = .ks) :
    ScheduleInv (keyTransition s) := by
  obtain ⟨key, hcd, hk⟩ := h.2 hp
  obtain ⟨hcd', hk'⟩ := keyTransition_schedule hcd hk
  by_cases hc : s.cnt = 15
  · have h16 : s.cnt.val + 1 = 16 := by rw [hc]; rfl
    rw [h16] at hcd' hk'
    refine ⟨fun _ => ⟨key, Vector.ext fun i hi => hk' ⟨i, hi⟩ hi, hcd'.trans (halvesAfter_sixteen key)⟩, fun hks => ?_⟩
    simp [hc] at hks
  · have hcnt : (keyTransition s).cnt.val = s.cnt.val + 1 := by
      rw [keyTransition_cnt, if_neg hc, (cnt_succ_val hc).2]
    refine ⟨fun hvalid => ?_, fun _ => ⟨key, ?_⟩⟩
    · simp [hc, hv] at hvalid
    · rw [hcnt]
      exact ⟨hcd', hk'⟩

theorem scheduleInv_step {s t : State} (hf : FlagInv s) (h : ScheduleInv s) (hst : Transition s t) : ScheduleInv t := by
  have hpop : ScheduleInv (popInputs s) := h
  cases hst with
  | reset => exact scheduleInv_resetEdge _
  | stay => exact hpop
  | loadKey key => exact scheduleInv_acceptKey key _
  | startBlock => exact scheduleInv_of_same hpop nofun rfl rfl rfl rfl
  | noKey => exact hpop
  | keyRound hr hp => exact scheduleInv_keyTransition hpop (hf.1 hp) hp
  | blockRound hr hp =>
    exact scheduleInv_of_same hpop (roundTransition_phase_ne_ks hp) (roundTransition_keyValid _) (roundTransition_k _)
      (roundTransition_c _) (roundTransition_d _)
  | final => exact scheduleInv_of_same hpop nofun rfl rfl rfl rfl

/-- Settles O30. -/
theorem stepKeepsScheduleInv : Obligations.StepKeepsScheduleInv :=
  fun _ _ hf h hst => scheduleInv_step hf h (step_iff_transition.mp hst)

end Sys2Proof.Machine
end

section
namespace Sys2Proof.Machine

/-! ### Round keys that no rule reads (R22, R259) -/

/-- The state `s` with another round-key file. -/
def withKeys (s : State) (k : Vector RoundKey 16) : State := { s with k := k }

@[simp] theorem withKeys_self (s : State) : withKeys s s.k = s := rfl

/-- A key-schedule transition writes one round key and reads none (R134). -/
theorem keyTransition_withKeys (s : State) (k : Vector RoundKey 16) :
    keyTransition (withKeys s k) =
      withKeys (keyTransition s) (k.set s.cnt (selectKey (rotateHalves (s.c, s.d) (shiftAmount s.cnt)))) := by
  apply State.ext_fields <;> simp [withKeys]

theorem equalButUnreadKeys_refl (s : State) : EqualButUnreadKeys s s := ⟨rfl, fun _ => rfl, fun _ _ _ => rfl⟩

/-- With a key loaded the relation is equality. -/
theorem eq_of_equalButUnreadKeys {s t : State} (h : EqualButUnreadKeys s t) (hv : s.keyValid = true) : t = s := by
  obtain ⟨hrest, hk, -⟩ := h
  rw [hrest, hk hv]

/-- Outside a key load and without a key, `K` is free. -/
theorem equalButUnreadKeys_withKeys {s : State} (k : Vector RoundKey 16) (hv : s.keyValid = false) (hp : s.phase ≠ .ks) :
    EqualButUnreadKeys s (withKeys s k) :=
  ⟨rfl, fun h => by simp [hv] at h, fun h => absurd h hp⟩

/-- A key load has written nothing yet, so at its start `K` is free (R132). -/
theorem equalButUnreadKeys_acceptKey (key : Word) (s : State) (k : Vector RoundKey 16) :
    EqualButUnreadKeys (acceptKey key s) (acceptKey key (withKeys s k)) :=
  ⟨rfl, nofun, fun _ _ hi => absurd hi (Nat.not_lt_zero _)⟩

/-- Two key loads that agree on the round keys below `CNT` agree below the next `CNT`; after the last they agree on `K`. -/
theorem equalButUnreadKeys_keyTransition {s : State} {k : Vector RoundKey 16} (hv : s.keyValid = false)
    (hk : ∀ i : Fin 16, i.val < s.cnt.val → k[i] = s.k[i]) :
    EqualButUnreadKeys (keyTransition s) (keyTransition (withKeys s k)) := by
  have hwritten (i : Fin 16) (hi : i.val < s.cnt.val + 1) : (keyTransition (withKeys s k)).k[i] = (keyTransition s).k[i] := by
    by_cases hcur : i = s.cnt
    · subst hcur
      simp [withKeys]
    · have hne : s.cnt.val ≠ i.val := fun h => hcur (Fin.ext h.symm)
      have hold := hk i (by omega)
      simpa [withKeys, Vector.getElem_set_ne, hne] using hold
  refine ⟨by rw [keyTransition_withKeys]; rfl, fun hvalid => ?_, fun hks i hi => hwritten i ?_⟩
  · have hlast : s.cnt = 15 := by simpa [hv] using hvalid
    exact Vector.ext fun i hi => hwritten ⟨i, hi⟩ (by simp [hlast]; omega)
  · have hc : s.cnt ≠ 15 := fun hc => by simp [hc] at hks
    rw [keyTransition_cnt, if_neg hc, (cnt_succ_val hc).2] at hi
    exact hi

/-- Without a key, the same edge takes a state with other unread round keys to such a state again. -/
theorem transition_withKeys {s s' : State} {k : Vector RoundKey 16} (hf : FlagInv s) (hv : s.keyValid = false)
    (hk : s.phase = .ks → ∀ i : Fin 16, i.val < s.cnt.val → k[i] = s.k[i]) (h : Transition s s') :
    ∃ t', Transition (withKeys s k) t' ∧ EqualButUnreadKeys s' t' := by
  obtain ⟨-, hblock, -⟩ := hf
  have hbusy (hp : s.phase = .rnd ∨ s.phase = .fp) : False := by simp [hblock hp] at hv
  cases h with
  | reset hr => exact ⟨_, .reset hr, equalButUnreadKeys_refl _⟩
  | stay hr hp ha => exact ⟨_, .stay hr hp ha, equalButUnreadKeys_withKeys k hv (by simp [hp])⟩
  | loadKey key hr hp ha => exact ⟨_, .loadKey key hr hp ha, equalButUnreadKeys_acceptKey key _ k⟩
  | startBlock dir block hr hp ha hkey => simp [hv] at hkey
  | noKey dir block hr hp ha => exact ⟨_, .noKey dir block hr hp ha hv, equalButUnreadKeys_withKeys k hv (by simp [hp])⟩
  | keyRound hr hp => exact ⟨_, .keyRound hr hp, equalButUnreadKeys_keyTransition hv (hk hp)⟩
  | blockRound hr hp => exact (hbusy (.inl hp)).elim
  | final hr hp => exact (hbusy (.inr hp)).elim

theorem equalButUnreadKeys_step {s t : State} (hf : FlagInv s) (h : EqualButUnreadKeys s t) :
    ∃ s' t', Transition s s' ∧ Transition t t' ∧ EqualButUnreadKeys s' t' := by
  obtain ⟨s', hs'⟩ := exists_transition s
  cases hv : s.keyValid with
  | true =>
    obtain rfl := eq_of_equalButUnreadKeys h hv
    exact ⟨s', s', hs', hs', equalButUnreadKeys_refl s'⟩
  | false =>
    obtain ⟨hrest, -, hk⟩ := h
    obtain ⟨t', ht', heq⟩ := transition_withKeys hf hv hk hs'
    exact ⟨s', t', hs', hrest ▸ ht', heq⟩

/-- Settles O31: no output port shows `K`, and without a key only a key-schedule transition touches it. -/
theorem unreadKeysAreNeverObserved : Obligations.UnreadKeysAreNeverObserved := by
  intro s t hf h
  have hports : cmdReady s = cmdReady t ∧ outData s = outData t ∧ status s = status t := by
    rw [h.1]
    exact ⟨rfl, rfl, rfl⟩
  obtain ⟨s', t', hs', ht', heq⟩ := equalButUnreadKeys_step hf h
  exact ⟨hports, s', t', step_of_transition hs', step_of_transition ht', heq⟩

end Sys2Proof.Machine
end

section
namespace Sys2Proof.Machine

/-! ### PHASE and CNT (R23, R24) -/

/-- One key-schedule transition counts on in KS or, after the last, goes to IDLE (R24, R135). -/
theorem keyTransition_sequence {s : State} (hp : s.phase = .ks) :
    (s.cnt.val = 15 ∧ (keyTransition s).phase = .idle ∧ (keyTransition s).cnt = 0) ∨
    (s.cnt.val < 15 ∧ (keyTransition s).phase = .ks ∧ (keyTransition s).cnt.val = s.cnt.val + 1) := by
  by_cases hc : s.cnt = 15
  · exact .inl (by simp [hc])
  · exact .inr (by simp [hc, hp, cnt_succ_val hc])

/-- One round counts on in RND or, after the last, goes to FP (R24, R173). -/
theorem roundTransition_sequence {s : State} (hp : s.phase = .rnd) :
    (s.cnt.val = 15 ∧ (roundTransition s).phase = .fp ∧ (roundTransition s).cnt = 0) ∨
    (s.cnt.val < 15 ∧ (roundTransition s).phase = .rnd ∧ (roundTransition s).cnt.val = s.cnt.val + 1) := by
  by_cases hc : s.cnt = 15
  · exact .inl (by simp [hc])
  · exact .inr (by simp [hc, hp, cnt_succ_val hc])

/-- From IDLE the accepted command decides where the core goes (R24, R170). -/
theorem transition_idle_sequence {s t : State} (h : Transition s t) (hr : (portsNow s).rst = false) (hp : s.phase = .idle) :
    (t.phase = .idle ∧ t.cnt = s.cnt ∧ ¬AcceptsKey s ∧
      ∀ i, acceptedCommand s = some i → isBlockCommand i = true → s.keyValid = false) ∨
    (t.phase = .ks ∧ t.cnt = 0 ∧ AcceptsKey s) ∨
    (t.phase = .rnd ∧ t.cnt = 0 ∧ s.keyValid = true ∧ AcceptsBlock s) := by
  cases h with
  | reset hr' => simp [hr] at hr'
  | stay _ _ ha =>
    refine .inl ⟨hp, rfl, not_acceptsKey_of_nop ha, fun i hi hb => ?_⟩
    obtain ⟨data, rfl⟩ := ha i hi
    cases hb
  | loadKey key _ _ ha => exact .inr (.inl ⟨rfl, rfl, key, ha⟩)
  | startBlock dir block _ _ ha hk => exact .inr (.inr ⟨rfl, rfl, hk, acceptsBlock_of_blockCommand ha⟩)
  | noKey dir block _ _ ha hk => exact .inl ⟨hp, rfl, not_acceptsKey_of_blockCommand ha, fun _ _ _ => hk⟩
  | keyRound _ hp' => simp [hp] at hp'
  | blockRound _ hp' => simp [hp] at hp'
  | final _ hp' => simp [hp] at hp'

/-- Settles O6: the accepted command decides in IDLE, and each busy phase has one transition. -/
theorem phaseSequence : Obligations.PhaseSequence := by
  intro s t hst hr
  have h := step_iff_transition.mp hst
  refine ⟨fun hp => ?_, fun hp => ?_, fun hp => ?_, fun hp => ?_⟩
  · simpa only [AcceptsKey, AcceptsBlock, not_exists] using transition_idle_sequence h hr hp
  · cases hst.symm.trans (step_of_transition (.keyRound hr hp))
    exact keyTransition_sequence (s := popInputs s) hp
  · cases hst.symm.trans (step_of_transition (.blockRound hr hp))
    exact roundTransition_sequence (s := popInputs s) hp
  · cases hst.symm.trans (step_of_transition (.final hr hp))
    exact ⟨rfl, rfl⟩

theorem counterInv_keyTransition {s : State} (hp : s.phase = .ks) : CounterInv (keyTransition s) := by
  rcases keyTransition_sequence hp with ⟨-, -, hc⟩ | ⟨-, hks, -⟩
  · exact fun _ => hc
  · exact fun h => absurd h (by rw [hks]; decide)

theorem counterInv_roundTransition {s : State} (hp : s.phase = .rnd) : CounterInv (roundTransition s) := by
  rcases roundTransition_sequence hp with ⟨-, -, hc⟩ | ⟨-, hrnd, -⟩
  · exact fun _ => hc
  · exact fun h => absurd h (by rw [hrnd]; decide)

theorem counterInv_step {s t : State} (h : CounterInv s) (hst : Transition s t) : CounterInv t := by
  have hpop : CounterInv (popInputs s) := h
  cases hst with
  | reset => exact fun _ => rfl
  | stay => exact hpop
  | loadKey => exact fun _ => rfl
  | startBlock => exact fun _ => rfl
  | noKey => exact hpop
  | keyRound hr hp => exact counterInv_keyTransition hp
  | blockRound hr hp => exact counterInv_roundTransition hp
  | final hr hp => exact fun _ => h (.inr hp)

/-- Settles O28. -/
theorem stepKeepsCounterInv : Obligations.StepKeepsCounterInv :=
  fun _ _ h hst => counterInv_step h (step_iff_transition.mp hst)

/-! ### KEY_VALID, OUT_VALID and ERR_NOKEY (R25) -/

theorem keyValid_step {s t : State} (h : Transition s t) :
    t.keyValid = if (portsNow s).rst = true then false else if AcceptsKey s then false
      else if s.phase = .ks ∧ s.cnt.val = 15 then true else s.keyValid := by
  cases h with
  | reset hr => simp [hr]
  | stay hr hp ha => simp [hr, hp, not_acceptsKey_of_nop ha]
  | loadKey key hr hp ha => simp [hr, show AcceptsKey s from ⟨key, ha⟩]
  | startBlock dir block hr hp ha hk => simp [hr, hp, not_acceptsKey_of_blockCommand ha]
  | noKey dir block hr hp ha hk => simp [hr, hp, not_acceptsKey_of_blockCommand ha]
  | keyRound hr hp =>
    have hn := not_acceptsKey_of_none (acceptedCommand_busy (s := s) (by simp [hp]))
    simp [hr, hp, hn, Fin.ext_iff]
  | blockRound hr hp | final hr hp =>
    have hn := not_acceptsKey_of_none (acceptedCommand_busy (s := s) (by simp [hp]))
    simp [hr, hp, hn]

theorem outValid_step {s t : State} (h : Transition s t) :
    t.outValid = if (portsNow s).rst = true then false else if AcceptsBlock s ∧ s.keyValid = true then false
      else if s.phase = .fp then true else s.outValid := by
  cases h with
  | reset hr => simp [hr]
  | stay hr hp ha => simp [hr, hp, not_acceptsBlock_of_nop ha]
  | loadKey key hr hp ha => simp [hr, hp, not_acceptsBlock_of_ldkey ha]
  | startBlock dir block hr hp ha hk => simp [hr, hk, acceptsBlock_of_blockCommand ha]
  | noKey dir block hr hp ha hk => simp [hr, hp, hk]
  | keyRound hr hp | blockRound hr hp | final hr hp =>
    have hn := not_acceptsBlock_of_none (acceptedCommand_busy (s := s) (by simp [hp]))
    simp [hr, hp, hn]

theorem errNoKey_step {s t : State} (h : Transition s t) :
    t.errNoKey = if (portsNow s).rst = true then false else if AcceptsBlock s ∧ s.keyValid = false then true
      else s.errNoKey := by
  cases h with
  | reset hr => simp [hr]
  | stay hr hp ha => simp [hr, not_acceptsBlock_of_nop ha]
  | loadKey key hr hp ha => simp [hr, not_acceptsBlock_of_ldkey ha]
  | startBlock dir block hr hp ha hk => simp [hr, hk]
  | noKey dir block hr hp ha hk => simp [hr, hk, acceptsBlock_of_blockCommand ha]
  | keyRound hr hp | blockRound hr hp | final hr hp =>
    have hn := not_acceptsBlock_of_none (acceptedCommand_busy (s := s) (by simp [hp]))
    simp [hr, hn]

@[simp] theorem busy_iff (s : State) : busy s = true ↔ s.phase ≠ .idle := decide_eq_true_iff

/-- Settles O26. -/
theorem flagsSetAndCleared : Obligations.FlagsSetAndCleared := by
  intro s t hst
  have h := step_iff_transition.mp hst
  exact ⟨keyValid_step h, outValid_step h, errNoKey_step h, busy_iff s, rfl⟩

/-- Settles O25, from the table of R25. -/
theorem faultFlagIsSticky : Obligations.FaultFlagIsSticky := by
  intro s t hst
  have h := errNoKey_step (step_iff_transition.mp hst)
  refine ⟨fun he hr => ?_, fun hr => ?_⟩
  · have ht : t.errNoKey = true := by simp [h, he, hr]
    exact ⟨ht, ht⟩
  · simp [h, hr]

/-! ### The writers of the other registers (R21, R30 to R33) -/

/-- Settles O33: each transition leaves alone every register it does not name. -/
theorem registerWriters : Obligations.RegisterWriters := by
  intro s t hst hr
  cases step_iff_transition.mp hst with
  | reset hr' => simp [hr] at hr'
  | stay => simp
  | noKey => simp
  | loadKey key _ _ ha => simp [ha]
  | startBlock dir block _ _ ha hk =>
    have hb : AcceptsBlock s := acceptsBlock_of_blockCommand ha
    exact ⟨by simp, by simp, by simp, fun _ => .inr ⟨hk, hb⟩, fun _ => ⟨hk, hb⟩⟩
  | keyRound _ hp =>
    refine ⟨fun i hne => ⟨hp, ?_⟩, by simp, fun _ => .inl hp, by simp, by simp⟩
    by_contra hi
    have hne' : s.cnt.val ≠ i.val := fun h => hi (Fin.ext h.symm)
    exact hne (by simp [Vector.getElem_set_ne, hne'])
  | blockRound _ hp => exact ⟨by simp, by simp, by simp, fun _ => .inl hp, by simp⟩
  | final _ hp => exact ⟨by simp, fun _ => hp, by simp, by simp, by simp⟩

/-! ### Runs from reset (R27, R221) -/

/-- A key is loaded or being loaded. -/
def KeyLoaded (s : State) : Prop := s.keyValid = true ∨ s.phase = .ks

/-- One of the next `n` edges accepts an `LDKEY`. -/
def LoadsKeyWithin (n : Nat) (s : State) : Prop := ∃ m < n, ∃ u, runEdges m s = .next u ∧ AcceptsKey u

theorem loadsKeyWithin_succ {s u : State} (n : Nat) (h : step s = .next u) :
    LoadsKeyWithin (n + 1) s ↔ AcceptsKey s ∨ LoadsKeyWithin n u := by
  unfold LoadsKeyWithin
  rw [Nat.exists_lt_succ_left]
  simp [runEdges_succ _ h]

theorem not_loadsKeyWithin_iff {n : Nat} {s : State} : ¬LoadsKeyWithin n s ↔
    ∀ m < n, ∀ u key, runEdges m s = .next u → acceptedCommand u ≠ some (.ldkey key) :=
  ⟨fun h m hm u key hu ha => h ⟨m, hm, u, hu, key, ha⟩, fun h ⟨m, hm, u, hu, key, ha⟩ => h m hm u key hu ha⟩

/-- Without reset a core has a key, whole or in part, exactly when it had one or accepts an `LDKEY` now. -/
theorem keyLoaded_step {s t : State} (hr : (portsNow s).rst = false) (h : Transition s t) :
    KeyLoaded t ↔ KeyLoaded s ∨ AcceptsKey s := by
  cases h with
  | reset hr' => simp [hr] at hr'
  | stay _ hp ha => simp [KeyLoaded, not_acceptsKey_of_nop ha]
  | loadKey key _ hp ha => simp [KeyLoaded, show AcceptsKey s from ⟨key, ha⟩]
  | startBlock dir block _ hp ha hk => simp [KeyLoaded, hk]
  | noKey dir block _ hp ha hk => simp [KeyLoaded, not_acceptsKey_of_blockCommand ha]
  | keyRound _ hp => by_cases hc : s.cnt = 15 <;> simp [KeyLoaded, hp, hc]
  | blockRound _ hp =>
    have hn := not_acceptsKey_of_none (acceptedCommand_busy (s := s) (by simp [hp]))
    by_cases hc : s.cnt = 15 <;> simp [KeyLoaded, hp, hn, hc]
  | final _ hp =>
    have hn := not_acceptsKey_of_none (acceptedCommand_busy (s := s) (by simp [hp]))
    simp [KeyLoaded, hp, hn]

/-- One edge uses up one entry of the coming inputs, whatever it does. -/
theorem inputs_step {s t : State} (h : Transition s t) : t.inputs = s.inputs.tail := by
  cases h <;> simp

theorem noReset_succ {s t : State} {n : Nat} (h : NoReset (n + 1) s) (hst : Transition s t) :
    (portsNow s).rst = false ∧ NoReset n t := by
  unfold NoReset portsNow at *
  rw [inputs_step hst]
  cases hi : s.inputs with
  | nil => simp
  | cons p rest => simpa [hi] using h

/-- `keyLoaded_step` over any number of edges without reset. -/
theorem keyLoaded_run {s t : State} {n : Nat} (hn : NoReset n s) (h : runEdges n s = .next t) :
    KeyLoaded t ↔ KeyLoaded s ∨ LoadsKeyWithin n s := by
  induction n generalizing s with
  | zero =>
    cases h
    simp [LoadsKeyWithin]
  | succ n ih =>
    obtain ⟨u, hu⟩ := exists_transition s
    have hstep := step_of_transition hu
    obtain ⟨hr, hn'⟩ := noReset_succ hn hu
    rw [ih hn' ((runEdges_succ n hstep).symm.trans h), keyLoaded_step hr hu, loadsKeyWithin_succ n hstep, or_assoc]

/-- What every step keeps holds along every run. -/
theorem runEdges_invariant {P : State → Prop} (hstep : ∀ s t, P s → Transition s t → P t) {s t : State} {n : Nat}
    (hs : P s) (h : runEdges n s = .next t) : P t := by
  induction n generalizing s with
  | zero =>
    cases h
    exact hs
  | succ n ih =>
    obtain ⟨u, hu⟩ := exists_transition s
    exact ih (hstep s u hs hu) ((runEdges_succ n (step_of_transition hu)).symm.trans h)

theorem flagInv_reset (waveform : List PortIn) : FlagInv { State.reset with inputs := waveform } :=
  ⟨nofun, nofun, nofun, fun _ _ => rfl⟩

/-- Settles O24: the equivalence by following the key through the run, the rest by the flag invariants. -/
theorem keyMissingExactlyBeforeFirstLoad : Obligations.KeyMissingExactlyBeforeFirstLoad := by
  intro n waveform t hn hrun hidle
  have hload : t.keyValid = true ↔ LoadsKeyWithin n { State.reset with inputs := waveform } := by
    simpa [KeyLoaded, hidle, State.reset] using keyLoaded_run hn hrun
  have hinv : FlagInv t := runEdges_invariant (fun _ _ => flagInv_step) (flagInv_reset waveform) hrun
  obtain ⟨-, -, -, hreset⟩ := hinv
  refine ⟨?_, fun hk => ?_⟩
  · rw [← Bool.not_eq_true, hload]
    exact not_loadsKeyWithin_iff
  · rw [hreset hk hidle]
    exact ⟨rfl, rfl⟩

/-- Settles O27: at reset there is no key, no result and no command in progress. -/
theorem invariantsHoldAtReset : Obligations.InvariantsHoldAtReset :=
  fun waveform => ⟨fun _ => rfl, flagInv_reset waveform, ⟨nofun, nofun⟩⟩

/-! ### Output ports (R29, R34, R40) -/

/-- Settles O8: the ports evaluated in the reset state. -/
theorem portsAfterReset : Obligations.PortsAfterReset := by
  unfold Obligations.PortsAfterReset
  decide

/-- Port bit `b` of `out_data` is index `63 - b` of `OUT` (R8, R34). -/
theorem outData_getLsbD (s : State) (b : Nat) (hb : b < 64) : (outData s).getLsbD b = s.out.getMsbD (63 - b) := by
  have hidx : 64 - 1 - (63 - b) = b := by omega
  have hlt : 63 - b < 64 := by omega
  simp [outData, val64, BitVec.getMsbD_eq_getLsbD, hidx, hlt]

/-- A bundle of four bits, read bit by bit. -/
theorem getLsbD_fourBits (b3 b2 b1 b0 : Bool) :
    let bundle : BitVec 4 := BitVec.ofBool b3 ++ BitVec.ofBool b2 ++ BitVec.ofBool b1 ++ BitVec.ofBool b0
    bundle.getLsbD 0 = b0 ∧ bundle.getLsbD 1 = b1 ∧ bundle.getLsbD 2 = b2 ∧ bundle.getLsbD 3 = b3 := by
  revert b3 b2 b1 b0
  decide

/-- The four bits of `STATUS` (R29). -/
theorem status_getLsbD (s : State) :
    (status s).getLsbD 0 = busy s ∧ (status s).getLsbD 1 = s.outValid ∧
    (status s).getLsbD 2 = s.keyValid ∧ (status s).getLsbD 3 = s.errNoKey :=
  getLsbD_fourBits s.errNoKey s.keyValid s.outValid (busy s)

/-- Settles O50. -/
theorem portsShowRegisters : Obligations.PortsShowRegisters := by
  intro s
  obtain ⟨hbusy, hout, hkey, herr⟩ := status_getLsbD s
  refine ⟨outData_getLsbD s, rfl, rfl, rfl, cmdReady_iff s, ?_, hout, hkey, herr⟩
  rw [hbusy, cmdReady, Bool.not_not]

end Sys2Proof.Machine
end

section
namespace Sys2Proof.Machine

/-! ### A command in progress, taken to its end (R130, R177, R262)

From the accepting edge on, a busy core follows `advance` whatever is on the command ports (R255). `FinishesIn n s t` follows it
until the core is ready again: a command as a whole is its accepting edge and then such a run. -/

/-- The core `s` is busy for exactly `n` more edges without reset, and then it is `t`. -/
inductive FinishesIn : Nat → State → State → Prop
  | ready {s : State} (hp : s.phase = .idle) : FinishesIn 0 s s
  | edge {n : Nat} {s t : State} (hp : s.phase ≠ .idle) (h : FinishesIn n (advance s) t) : FinishesIn (n + 1) s t

theorem FinishesIn.idle {n : Nat} {s t : State} (h : FinishesIn n s t) : t.phase = .idle := by
  induction h with
  | ready hp => exact hp
  | edge _ _ ih => exact ih

/-! The 16 key-schedule transitions. -/

/-- The core during an `LDKEY` accepted in `s`, after `n` key-schedule transitions (R132 to R134). -/
def keyLoadAfter (key : Word) (s : State) (n : Fin 16) : State :=
  { acceptKey key s with
    cnt := n
    c := (halvesAfter key n.val).1
    d := (halvesAfter key n.val).2
    k := Vector.ofFn fun i => if i < n then (keySchedule key)[i] else s.k[i] }

theorem keyLoadAfter_zero (key : Word) (s : State) : keyLoadAfter key s 0 = acceptKey key s := by
  apply State.ext_fields <;> simp [keyLoadAfter, halvesAfter_zero]

/-- The transition rotates the halves of `n` rounds to those of `n + 1` (R133). -/
theorem keyTransition_keyLoadAfter_halves (key : Word) (s : State) (n : Fin 16) :
    (keyTransition (keyLoadAfter key s n)).c = (halvesAfter key (n.val + 1)).1 ∧
      (keyTransition (keyLoadAfter key s n)).d = (halvesAfter key (n.val + 1)).2 := by
  rw [halvesAfter_succ]
  simp [keyLoadAfter, rotateHalves]

/-- The transition adds round key `n` (R134). -/
theorem keyTransition_keyLoadAfter_k (key : Word) (s : State) (n : Fin 16) :
    (keyTransition (keyLoadAfter key s n)).k = Vector.ofFn fun i => if i ≤ n then (keySchedule key)[i] else s.k[i] := by
  have hnew : selectKey (rotateHalves (halvesAfter key n.val) (shiftAmount n)) = (keySchedule key)[n] := by
    rw [keySchedule_getElem, halvesAfter_succ]
  refine Vector.ext fun i hi => ?_
  rcases lt_trichotomy (⟨i, hi⟩ : Fin 16) n with hlt | rfl | hgt
  · have hne : n.val ≠ i := (Fin.val_ne_of_ne hlt.ne).symm
    simp [keyLoadAfter, Vector.getElem_set_ne, hne, hlt, hlt.le]
  · simpa [keyLoadAfter] using hnew
  · have hne : n.val ≠ i := Fin.val_ne_of_ne hgt.ne
    simp [keyLoadAfter, Vector.getElem_set_ne, hne, hgt.not_gt, hgt.not_ge]

theorem keyTransition_keyLoadAfter (key : Word) (s : State) (n : Fin 15) :
    keyTransition (keyLoadAfter key s n.castSucc) = keyLoadAfter key s n.succ := by
  have hne : n.castSucc ≠ 15 := Fin.castSucc_ne_last n
  obtain ⟨hc, hd⟩ := keyTransition_keyLoadAfter_halves key s n.castSucc
  have hk := keyTransition_keyLoadAfter_k key s n.castSucc
  simp only [Fin.le_castSucc_iff] at hk
  apply State.ext_fields
  case hc => exact hc
  case hd => exact hd
  case hk => exact hk
  all_goals simp [keyLoadAfter, hne]

/-- The sixteenth transition completes the load: `C` and `D` are back at their start (R135, R137). -/
theorem keyTransition_keyLoadAfter_last (key : Word) (s : State) :
    keyTransition (keyLoadAfter key s 15) = keyEffect key s := by
  obtain ⟨hc, hd⟩ := keyTransition_keyLoadAfter_halves key s 15
  have hturn : halvesAfter key ((15 : Fin 16).val + 1) = initialHalves key := halvesAfter_sixteen key
  rw [hturn] at hc hd
  have hk := keyTransition_keyLoadAfter_k key s 15
  apply State.ext_fields
  case hc => exact hc
  case hd => exact hd
  case hk =>
    rw [hk]
    ext1 i hi
    have hle : (⟨i, hi⟩ : Fin 16) ≤ 15 := Fin.le_last _
    simp [keyEffect, hle]
  all_goals simp [keyLoadAfter, keyEffect]

theorem finishesIn_keyLoadAfter (key : Word) (s : State) (n : Fin 16) :
    FinishesIn (16 - n.val) (keyLoadAfter key s n) (keyEffect key s) := by
  induction n using Fin.reverseInduction with
  | last =>
    refine .edge nofun ?_
    rw [advance_ks rfl]
    exact keyTransition_keyLoadAfter_last key s ▸ .ready rfl
  | cast n ih =>
    have hleft : 16 - n.castSucc.val = (16 - n.succ.val) + 1 := by simp; omega
    rw [hleft]
    refine .edge nofun ?_
    rw [advance_ks rfl, keyTransition_keyLoadAfter]
    exact ih

/-! The 16 rounds and the final permutation. -/

/-- The core during a block command accepted in `s` with a key, after `n` rounds (R172, R173). -/
def blockAfter (dir : Dir) (block : Word) (s : State) (n : Fin 16) : State :=
  { ipTransition dir block s with
    cnt := n
    l := (blockHalvesAfter s.k (blockVector block) dir n.val).1
    r := (blockHalvesAfter s.k (blockVector block) dir n.val).2 }

/-- The core after the last round, before the final permutation (R173). -/
def blockRoundsDone (dir : Dir) (block : Word) (s : State) : State :=
  { ipTransition dir block s with
    phase := .fp
    l := (blockHalvesAfter s.k (blockVector block) dir 16).1
    r := (blockHalvesAfter s.k (blockVector block) dir 16).2 }

theorem blockAfter_zero (dir : Dir) (block : Word) (s : State) : blockAfter dir block s 0 = ipTransition dir block s := by
  simp [blockAfter, blockHalvesAfter_zero, ipTransition]

/-- The transition takes the halves of `n` rounds to those of `n + 1` (R173, R175). -/
theorem roundTransition_blockAfter_halves (dir : Dir) (block : Word) (s : State) (n : Fin 16) :
    (roundTransition (blockAfter dir block s n)).l = (blockHalvesAfter s.k (blockVector block) dir (n.val + 1)).1 ∧
      (roundTransition (blockAfter dir block s n)).r = (blockHalvesAfter s.k (blockVector block) dir (n.val + 1)).2 := by
  rw [blockHalvesAfter_succ]
  simp [blockAfter, roundStep, feistelRound, readKey]

theorem roundTransition_blockAfter (dir : Dir) (block : Word) (s : State) (n : Fin 15) :
    roundTransition (blockAfter dir block s n.castSucc) = blockAfter dir block s n.succ := by
  have hne : n.castSucc ≠ 15 := Fin.castSucc_ne_last n
  obtain ⟨hl, hr⟩ := roundTransition_blockAfter_halves dir block s n.castSucc
  apply State.ext_fields
  case hl => exact hl
  case hr => exact hr
  all_goals simp [blockAfter, hne]

theorem roundTransition_blockAfter_last (dir : Dir) (block : Word) (s : State) :
    roundTransition (blockAfter dir block s 15) = blockRoundsDone dir block s := by
  obtain ⟨hl, hr⟩ := roundTransition_blockAfter_halves dir block s 15
  apply State.ext_fields
  case hl => exact hl
  case hr => exact hr
  all_goals simp [blockAfter, blockRoundsDone]

theorem finalTransition_blockRoundsDone (dir : Dir) (block : Word) {s : State} (hk : s.keyValid = true) :
    finalTransition (blockRoundsDone dir block s) = blockEffect dir block s := by
  rw [blockEffect, if_pos hk]
  rfl

theorem finishesIn_blockRoundsDone (dir : Dir) (block : Word) {s : State} (hk : s.keyValid = true) :
    FinishesIn 1 (blockRoundsDone dir block s) (blockEffect dir block s) := by
  refine .edge nofun ?_
  rw [advance_fp rfl, ← finalTransition_blockRoundsDone dir block hk]
  exact .ready rfl

theorem finishesIn_blockAfter (dir : Dir) (block : Word) {s : State} (hk : s.keyValid = true) (n : Fin 16) :
    FinishesIn (17 - n.val) (blockAfter dir block s n) (blockEffect dir block s) := by
  induction n using Fin.reverseInduction with
  | last =>
    refine .edge nofun ?_
    rw [advance_rnd rfl]
    exact roundTransition_blockAfter_last dir block s ▸ finishesIn_blockRoundsDone dir block hk
  | cast n ih =>
    have hleft : 17 - n.castSucc.val = (17 - n.succ.val) + 1 := by simp; omega
    rw [hleft]
    refine .edge nofun ?_
    rw [advance_rnd rfl, roundTransition_blockAfter]
    exact ih

/-! Every command as a whole. -/

/-- A block command's acceptance, with a key or without (R177, R178, R221). -/
theorem finishesIn_acceptBlock (dir : Dir) (block : Word) {s : State} (hp : s.phase = .idle) :
    FinishesIn (if s.keyValid then 17 else 0) (acceptBlock dir block s) (blockEffect dir block s) := by
  cases hk : s.keyValid with
  | true =>
    rw [acceptBlock_key dir block hk, ← blockAfter_zero]
    exact finishesIn_blockAfter dir block hk 0
  | false =>
    rw [acceptBlock_noKey dir block hk, blockEffect, hk]
    exact .ready hp

/-- A command accepted by a ready core takes effect as a whole: its accepting edge, and then as many edges as are left of it. -/
theorem exec_finishesIn (i : Instr) {s : State} (hp : s.phase = .idle) :
    ∃ u, exec i s = .next u ∧ FinishesIn (commandEdges i s - 1) u (commandEffect i s) := by
  have hblock : (if s.keyValid then Config.tBlock else Config.tNop) - 1 = if s.keyValid then 17 else 0 := by
    split <;> rfl
  cases i with
  | nop data => exact ⟨s, exec_nop_idle data hp, .ready hp⟩
  | ldkey key => exact ⟨acceptKey key s, exec_ldkey_idle key hp, keyLoadAfter_zero key s ▸ finishesIn_keyLoadAfter key s 0⟩
  | enc block => exact ⟨_, exec_enc_idle block hp, hblock ▸ finishesIn_acceptBlock .encrypt block hp⟩
  | dec block => exact ⟨_, exec_dec_idle block hp, hblock ▸ finishesIn_acceptBlock .decrypt block hp⟩

/-- No command takes longer than a block command (R7, R262). -/
theorem commandEdges_le_tBlock (i : Instr) (s : State) : commandEdges i s ≤ Config.tBlock := by
  cases i with
  | nop | ldkey => simp [commandEdges, Config.tNop, Config.tLdkey, Config.tBlock]
  | enc | dec =>
    rw [commandEdges]
    split <;> simp [Config.tNop, Config.tBlock]

end Sys2Proof.Machine
end

section
namespace Sys2Proof.Machine

/-! ### Programs on the core (R95, R96, R130, R176 to R178) -/

@[simp] theorem decode_encode (i : Instr) : decode (encode i) = i := by
  cases i <;> simp [decode, encode, opcode, operand]

/-- Whatever the host holds on the command ports meanwhile, it sees a command in progress end (R255). -/
theorem clockUntilReady_finishesIn {p : PortIn} (hr : p.rst = false) {n fuel : Nat} {s t : State} (h : FinishesIn n s t)
    (hn : n ≤ fuel) : clockUntilReady p fuel s = .ok t := by
  induction h generalizing fuel with
  | ready hp => cases fuel <;> simp [clockUntilReady, hp]
  | @edge n s t hp _ ih =>
    obtain ⟨fuel, rfl⟩ := Nat.exists_eq_add_of_le' (Nat.le_trans (Nat.le_add_left 1 n) hn)
    simp [clockUntilReady, hp, clockWith_busy hr hp, Except.bind, ih (Nat.le_of_succ_le_succ hn)]

/-- `s` is a core on which a command is in progress, or none, and which is `t` when the host has waited (R96). -/
def WaitsFor (s t : State) : Prop := ∃ n ≤ Config.tBlock, FinishesIn n s t

theorem hostWait_waitsFor {s t : State} (h : WaitsFor s t) : hostWait s = .ok t := by
  obtain ⟨n, hn, hf⟩ := h
  exact clockUntilReady_finishesIn presentingNothing_rst hf hn

/-- A command line on a core that is still at work is accepted where that work has ended, and works from there (R95). -/
theorem hostIssue_waitsFor (i : Instr) {s t : State} (h : WaitsFor s t) :
    ∃ u, hostIssue i s = .ok u ∧ WaitsFor u (commandEffect i t) := by
  obtain ⟨n, hn, hf⟩ := h
  obtain ⟨u, hexec, hu⟩ := exec_finishesIn i hf.idle
  refine ⟨u, ?_, _, (Nat.sub_le _ _).trans (commandEdges_le_tBlock i t), hu⟩
  rw [hostIssue, clockUntilReady_finishesIn (presenting_rst _) hf hn]
  exact clockWith_presenting (by rw [decode_encode, hexec])

/-- The program's lines, from a core that is still at work, end in the fold of the whole commands. -/
theorem runLines_waitsFor (program : List Instr) {s t : State} (h : WaitsFor s t) :
    runLines (program.map Line.command ++ [.wait]) s =
      .ok (program.foldl (fun t i => commandEffect i t) t, []) := by
  induction program generalizing s t with
  | nil => simp [runLines, runLine, hostWait_waitsFor h, Except.bind, Except.map]
  | cons i rest ih =>
    obtain ⟨u, hissue, hu⟩ := hostIssue_waitsFor i h
    have hrest := ih hu
    simp [runLines, runLine, hissue, hrest, Except.bind, Except.map]

/-- Settles O38: line by line, the core that is at work on the commands so far waits for their fold. -/
theorem programsRunAtomically : Obligations.ProgramsRunAtomically :=
  fun program _ hp => runLines_waitsFor program ⟨0, Nat.zero_le _, .ready hp⟩

end Sys2Proof.Machine
end

section
namespace Sys2Proof.Machine

/-! ### The constant tables (R68) -/

/-- Settles O49: the tables are closed data and each check of R68 is evaluated on them. -/
theorem tablesPassTheChecks : Obligations.TablesPassTheChecks :=
  ⟨by decide, by decide, -- (a) every position once in IP, FP and P
    by decide, -- (b) FP inverts IP
    by decide, by decide, by decide, -- (c) E
    by decide, by decide, by decide, -- (d) PC1
    by decide, by decide, by decide, by decide, by decide, -- (e) PC2
    by decide, -- (f) SHIFT
    by decide, -- (g) the rows of SBOX
    by decide, by decide, by decide, by decide, by decide, by decide, by decide⟩ -- (h) the sums

end Sys2Proof.Machine
end

section
namespace Sys2Proof

/-! ### Command words (R90 to R94) -/

@[simp] theorem opcode_decodeOp (op : BitVec 2) (data : Word) : opcode (decodeOp op data) = op := by
  obtain rfl | rfl | rfl | rfl := op_cases op <;> rfl

@[simp] theorem operand_decodeOp (op : BitVec 2) (data : Word) : operand (decodeOp op data) = data := by
  obtain rfl | rfl | rfl | rfl := op_cases op <;> rfl

@[simp] theorem encode_decode (cw : CommandWord) : encode (decode cw) = cw := by
  rw [encode, decode, opcode_decodeOp, operand_decodeOp, commandWord_fields]

/-- Settles O1: a word is its two fields, and every operation code is exactly one command's. -/
theorem decodeEncodeInverse : Obligations.DecodeEncodeInverse :=
  ⟨Machine.decode_encode, encode_decode⟩

/-- Read as a number, the word of a command is that command. -/
theorem decodeNumber_encode (i : Instr) : decodeNumber (encode i).toNat = .ok i := by
  rw [decodeNumber, commandNumberOk, decide_eq_true (encode i).isLt, if_pos rfl, BitVec.ofNat_toNat, BitVec.setWidth_eq,
    Machine.decode_encode]

theorem decodeNumber_tooWide {w : Nat} (h : 2 ^ 66 ≤ w) : decodeNumber w = .error .tooWide := by
  rw [decodeNumber, commandNumberOk, decide_eq_false (Nat.not_lt.mpr h), if_neg Bool.false_ne_true]

/-- Settles O2: the six numbers are the words of the six commands, and the last one has no word. -/
theorem decodeSampleWords : Obligations.DecodeSampleWords :=
  ⟨decodeNumber_encode (.nop 0x0000000000000000#64), decodeNumber_encode (.nop 0x00000000DEADBEEF#64),
    decodeNumber_encode (.ldkey 0x133457799BBCDFF1#64), decodeNumber_encode (.enc 0x0123456789ABCDEF#64),
    decodeNumber_encode (.dec 0x85E813540F0AB405#64), decodeNumber_encode (.dec 0xFFFFFFFFFFFFFFFF#64),
    decodeNumber_tooWide (Nat.le_refl _)⟩

end Sys2Proof
end

section
namespace Sys2Proof.Machine

/-! ### The host's wait for a ready core (R95, R255, R262) -/

/-- The edges until the core is IDLE again, if there is no reset (R24, R262). -/
def edgesLeft (s : State) : Nat :=
  match s.phase with
  | .idle => 0
  | .ks => 16 - s.cnt.val
  | .rnd => 17 - s.cnt.val
  | .fp => 1

theorem edgesLeft_idle {s : State} (hp : s.phase = .idle) : edgesLeft s = 0 := by simp [edgesLeft, hp]
theorem edgesLeft_ks {s : State} (hp : s.phase = .ks) : edgesLeft s = 16 - s.cnt.val := by simp [edgesLeft, hp]
theorem edgesLeft_rnd {s : State} (hp : s.phase = .rnd) : edgesLeft s = 17 - s.cnt.val := by simp [edgesLeft, hp]
theorem edgesLeft_fp {s : State} (hp : s.phase = .fp) : edgesLeft s = 1 := by simp [edgesLeft, hp]

theorem edgesLeft_le (s : State) : edgesLeft s ≤ 17 := by
  unfold edgesLeft
  split <;> omega

/-- Every edge of a busy core brings it one edge nearer to IDLE: CNT counts on, or the phase ends (R24). -/
theorem edgesLeft_advance {s : State} (hb : s.phase ≠ .idle) : edgesLeft s = edgesLeft (advance s) + 1 := by
  cases hp : s.phase with
  | idle => contradiction
  | ks =>
    rw [advance_ks hp, edgesLeft_ks hp]
    obtain ⟨hc, hp', -⟩ | ⟨hc, hp', hc'⟩ := keyTransition_sequence hp
    · rw [edgesLeft_idle hp', hc]
    · rw [edgesLeft_ks hp', hc']
      omega
  | rnd =>
    rw [advance_rnd hp, edgesLeft_rnd hp]
    obtain ⟨hc, hp', -⟩ | ⟨hc, hp', hc'⟩ := roundTransition_sequence hp
    · rw [edgesLeft_fp hp', hc]
    · rw [edgesLeft_rnd hp', hc']
      omega
  | fp => rw [advance_fp hp, edgesLeft_fp hp, edgesLeft_idle (finalTransition_phase s)]

/-- A core in any state, busy or not, comes to the end of its work. -/
theorem exists_finishesIn (s : State) : ∃ t, FinishesIn (edgesLeft s) s t := by
  induction h : edgesLeft s generalizing s with
  | zero =>
    refine ⟨s, .ready (by_contra fun hb => ?_)⟩
    simp [edgesLeft_advance hb] at h
  | succ n ih =>
    have hb : s.phase ≠ .idle := fun hp => by simp [edgesLeft_idle hp] at h
    obtain ⟨t, ht⟩ := ih (advance s) (by simpa [edgesLeft_advance hb] using h)
    exact ⟨t, .edge hb ht⟩

theorem exists_waitsFor (s : State) : ∃ t, WaitsFor s t := by
  obtain ⟨t, ht⟩ := exists_finishesIn s
  exact ⟨t, _, (edgesLeft_le s).trans (Nat.le_succ 17), ht⟩

theorem WaitsFor.idle {s t : State} (h : WaitsFor s t) : t.phase = .idle := by
  obtain ⟨_, -, hf⟩ := h
  exact hf.idle

/-- The edge that accepts a held command is its edge on the core that has finished its work (R95). -/
theorem hostIssue_of_exec {i : Instr} {s t u : State} (h : WaitsFor s t) (hexec : exec i t = .next u) :
    hostIssue i s = .ok u := by
  obtain ⟨n, hn, hf⟩ := h
  rw [hostIssue, clockUntilReady_finishesIn (presenting_rst _) hf hn]
  exact clockWith_presenting (by rw [decode_encode, hexec])

/-- Settles O37: whatever is on the command ports, a busy core goes on to the same end, and there it accepts. -/
theorem heldCommandIsAccepted : Obligations.HeldCommandIsAccepted := by
  intro i s
  obtain ⟨u, hu⟩ := exists_waitsFor s
  obtain ⟨t, ht, -⟩ := exec_finishesIn i hu.idle
  exact ⟨u, t, hostWait_waitsFor hu, (cmdReady_iff u).mpr hu.idle, ht, hostIssue_of_exec hu ht⟩

end Sys2Proof.Machine
end

section
namespace Sys2Proof.Machine

/-! ### Command lines as written and as read (R95, R96)

A line is written as parts with one blank between them (`lineParts`); as no part holds a blank or a `;`, the reader gets the
parts back. -/

/-- A part of a line as it is written: not empty, without a blank and without the start of a comment (R95). -/
abbrev IsPart (cs : List Char) : Prop := cs ≠ [] ∧ ' ' ∉ cs ∧ ';' ∉ cs

theorem stripComment_eq_self {cs : List Char} (h : ';' ∉ cs) : stripComment cs = cs := by
  induction cs with
  | nil => rfl
  | cons ch rest ih =>
    obtain ⟨hch, hrest⟩ := List.ne_and_not_mem_of_not_mem_cons h
    rw [stripComment, if_neg (Ne.symm hch), ih hrest]

/-- Characters that are no blanks are added to the part being read. -/
theorem splitBlanks_append {cs : List Char} (h : ' ' ∉ cs) (rest current : List Char) :
    splitBlanks (cs ++ rest) current = splitBlanks rest (cs.reverse ++ current) := by
  induction cs generalizing current with
  | nil => rfl
  | cons ch cs ih =>
    obtain ⟨hch, hcs⟩ := List.ne_and_not_mem_of_not_mem_cons h
    rw [List.cons_append, splitBlanks, if_neg (Ne.symm hch), ih hcs]
    simp

theorem splitBlanks_part {part : List Char} (h : IsPart part) : splitBlanks part [] = [part] := by
  obtain ⟨hne, hblank, -⟩ := h
  have happend := splitBlanks_append hblank [] []
  simpa [splitBlanks, hne] using happend

theorem splitBlanks_part_blank {part : List Char} (h : IsPart part) (rest : List Char) :
    splitBlanks (part ++ ' ' :: rest) [] = part :: splitBlanks rest [] := by
  obtain ⟨hne, hblank, -⟩ := h
  rw [splitBlanks_append hblank]
  simp [splitBlanks, hne]

/-- Parts written with one blank between them are read back (R95). -/
theorem splitBlanks_intercalate {parts : List (List Char)} (h : ∀ part ∈ parts, IsPart part) :
    splitBlanks ([' '].intercalate parts) [] = parts := by
  induction parts with
  | nil => rfl
  | cons part rest ih =>
    obtain ⟨hpart, hrest⟩ := List.forall_mem_cons.mp h
    cases rest with
    | nil => simpa using splitBlanks_part hpart
    | cons next rest =>
      rw [List.intercalate_cons_cons, List.append_assoc, List.singleton_append, splitBlanks_part_blank hpart, ih hrest]

theorem semicolon_notMem_intercalate {parts : List (List Char)} (h : ∀ part ∈ parts, IsPart part) :
    ';' ∉ [' '].intercalate parts := by
  induction parts with
  | nil => simp
  | cons part rest ih =>
    obtain ⟨⟨-, -, hpart⟩, hrest⟩ := List.forall_mem_cons.mp h
    cases rest with
    | nil => simpa using hpart
    | cons next rest => simp [hpart, ih hrest]

/-- A line is read part by part. -/
theorem parseLine_intercalate {parts : List (List Char)} (h : ∀ part ∈ parts, IsPart part) :
    parseLine ([' '].intercalate parts) = parseParts parts := by
  rw [parseLine, stripComment_eq_self (semicolon_notMem_intercalate h), splitBlanks_intercalate h]

/-! The operand: 16 hexadecimal digits (R95). -/

theorem hexValue_hexChar {n : Nat} (h : n < 16) : hexValue (hexChar n) = some n := by
  interval_cases n <;> rfl

theorem hexChar_ne_blank_semicolon {n : Nat} (h : n < 16) : hexChar n ≠ ' ' ∧ hexChar n ≠ ';' := by
  interval_cases n <;> decide

/-- Digit `i` of an operand, the most significant digit first: bits `63 - 4i` to `60 - 4i`. -/
def operandDigit (w : Word) (i : Nat) : Nat := (w.extractLsb' (60 - 4 * i) 4).toNat

theorem operandDigit_lt (w : Word) (i : Nat) : operandDigit w i < 16 := BitVec.isLt _

theorem renderOperand_eq (w : Word) :
    renderOperand w = '0' :: 'x' :: (List.range 16).map fun i => hexChar (operandDigit w i) := rfl

theorem hexDigits_append (as bs : List Char) (acc : Nat) :
    hexDigits (as ++ bs) acc = (hexDigits as acc).bind (hexDigits bs) := by
  induction as generalizing acc with
  | nil => rfl
  | cons a as ih => simp [hexDigits, ih, Option.bind_assoc]

/-- The digits read so far, with the next one, are the upper bits of the operand up to it. -/
theorem shift_operandDigit (w : Word) {i : Nat} (hi : i < 16) :
    w.toNat >>> (64 - 4 * i) * 16 + operandDigit w i = w.toNat >>> (64 - 4 * (i + 1)) := by
  have hshift : 64 - 4 * i = (60 - 4 * i) + 4 := by omega
  have hnext : 64 - 4 * (i + 1) = 60 - 4 * i := by omega
  rw [operandDigit, BitVec.extractLsb'_toNat, hshift, hnext, Nat.shiftRight_add, Nat.shiftRight_eq_div_pow _ 4]
  exact Nat.div_add_mod' _ 16

theorem hexDigits_operandDigits (w : Word) {n : Nat} (hn : n ≤ 16) :
    hexDigits ((List.range n).map fun i => hexChar (operandDigit w i)) 0 = some (w.toNat >>> (64 - 4 * n)) := by
  induction n with
  | zero => simp [hexDigits, Nat.shiftRight_eq_div_pow, Nat.div_eq_of_lt w.isLt]
  | succ n ih =>
    rw [List.range_succ, List.map_append, hexDigits_append, ih (Nat.le_of_succ_le hn)]
    simp [hexDigits, hexValue_hexChar (operandDigit_lt w n), shift_operandDigit w hn]

@[simp] theorem parseOperand_renderOperand (w : Word) : parseOperand (renderOperand w) = some w := by
  rw [renderOperand_eq, parseOperand, if_pos (by simp), hexDigits_operandDigits w (Nat.le_refl 16)]
  simp

theorem isPart_renderOperand (w : Word) : IsPart (renderOperand w) := by
  have hdigit (i : Nat) := hexChar_ne_blank_semicolon (operandDigit_lt w i)
  simp [IsPart, renderOperand_eq, hdigit]

/-- The parts a line is written as (R95, R96). -/
def lineParts : Line → List (List Char)
  | .command (.nop _) => [['N', 'O', 'P']]
  | .command (.ldkey key) => [['L', 'D', 'K', 'E', 'Y'], renderOperand key]
  | .command (.enc block) => [['E', 'N', 'C'], renderOperand block]
  | .command (.dec block) => [['D', 'E', 'C'], renderOperand block]
  | .reset => [['R', 'E', 'S', 'E', 'T']]
  | .wait => [['W', 'A', 'I', 'T']]
  | .read => [['R', 'E', 'A', 'D'], ['-', '>'], ['x']]

theorem renderLine_eq (line : Line) : renderLine line = [' '].intercalate (lineParts line) := by
  cases line with
  | command i => cases i <;> rfl
  | reset | wait | read => rfl

theorem isPart_of_mem_lineParts (line : Line) : ∀ part ∈ lineParts line, IsPart part := by
  cases line with
  | command i =>
    cases i with
    | nop => exact List.forall_mem_singleton.mpr (by decide)
    | ldkey w | enc w | dec w =>
      exact List.forall_mem_cons.mpr ⟨by decide, List.forall_mem_singleton.mpr (isPart_renderOperand w)⟩
  | reset | wait | read => decide

theorem parseLine_renderLine (line : Line) : parseLine (renderLine line) = parseParts (lineParts line) := by
  rw [renderLine_eq, parseLine_intercalate (isPart_of_mem_lineParts line)]

/-- Settles O56: the reader gets back the parts a line was written as, and with them its operand. -/
theorem assemblerReadsWhatItWrites : Obligations.AssemblerReadsWhatItWrites := by
  intro line
  rw [parseLine_renderLine]
  cases line with
  | command i =>
    cases i with
    | nop => rfl
    | ldkey | enc | dec => simp [lineParts, parseParts]
  | reset | wait | read => rfl

end Sys2Proof.Machine
end

section
namespace Sys2Proof.Machine

/-! ### The permutation engine (R110 to R120)

`permute` only selects bits, so each fact about it is a fact about the entries of its table. -/

theorem Table.lt_of_getElem?_eq_some {m n : Nat} {t : Table m n} {i p : Nat} (h : t.positions[i]? = some p) : i < n := by
  obtain ⟨hi, -⟩ := List.getElem?_eq_some_iff.mp h
  exact hi.trans_eq t.length_eq

theorem Table.exists_getElem?_eq_some {m n : Nat} (t : Table m n) {i : Nat} (hi : i < n) :
    ∃ p, t.positions[i]? = some p :=
  ⟨_, List.getElem?_eq_getElem (hi.trans_eq t.length_eq.symm)⟩

theorem Table.bounds_of_getElem?_eq_some {m n : Nat} {t : Table m n} {i p : Nat} (h : t.positions[i]? = some p) :
    1 ≤ p ∧ p ≤ m := by
  obtain ⟨hi, rfl⟩ := List.getElem?_eq_some_iff.mp h
  exact t.entry_bounds i hi

/-- Less one, an entry is an index of the input (R110). -/
theorem Table.pred_lt_of_getElem?_eq_some {m n : Nat} {t : Table m n} {i p : Nat} (h : t.positions[i]? = some p) :
    p - 1 < m := by
  obtain ⟨hpos, hle⟩ := Table.bounds_of_getElem?_eq_some h
  omega

/-- Index `i` of the output is the input bit that entry `i` names (R110). -/
theorem permute_getMsbD_of_getElem? {m n : Nat} {t : Table m n} {i p : Nat} (h : t.positions[i]? = some p) (v : Vec m) :
    (permute v t).getMsbD i = v.getMsbD (p - 1) := by
  have hi := Table.lt_of_getElem?_eq_some h
  obtain ⟨-, rfl⟩ := List.getElem?_eq_some_iff.mp h
  exact permute_getMsbD v t i hi

/-- A permuted vector is `w` when `w` has, at the index of every entry, the bit which that entry names. -/
theorem permute_eq_of_forall_entry {m n : Nat} {v : Vec m} {t : Table m n} {w : Vec n}
    (h : ∀ i p, t.positions[i]? = some p → v.getMsbD (p - 1) = w.getMsbD i) : permute v t = w := by
  refine Vec.ext_getMsbD fun i hi => ?_
  obtain ⟨p, hp⟩ := t.exists_getElem?_eq_some hi
  exact (permute_getMsbD_of_getElem? hp v).trans (h i p hp)

/-- Settles O41: the selection, with the bounds of the entry and of its index. -/
theorem permuteSelectsPositions : Obligations.PermuteSelectsPositions := by
  intro m n v t i p h
  obtain ⟨hpos, hle⟩ := Table.bounds_of_getElem?_eq_some h
  exact ⟨permute_getMsbD_of_getElem? h v, hpos, hle, Table.lt_of_getElem?_eq_some h⟩

/-- The entries of `t` name the indices at which `s` has put the bits of its input: entry `t[i]` of `s` is `i + 1` (R68 b). -/
abbrev Table.Undoes {n : Nat} (t s : Table n n) : Prop :=
  ∀ i < n, ∀ p ∈ t.positions[i]?, s.positions[p - 1]? = some (i + 1)

theorem permute_permute_of_undoes {n : Nat} {t s : Table n n} (h : t.Undoes s) (v : Vec n) : permute (permute v s) t = v :=
  permute_eq_of_forall_entry fun i p hp =>
    permute_getMsbD_of_getElem? (h i (Table.lt_of_getElem?_eq_some hp) p hp) v

theorem fpTable_undoes_ipTable : fpTable.Undoes ipTable := by decide

theorem ipTable_undoes_fpTable : ipTable.Undoes fpTable := by decide

/-- Settles O42: each of the two tables names the indices at which the other has put the bits. -/
theorem finalInvertsInitial : Obligations.FinalInvertsInitial :=
  fun b => ⟨permute_permute_of_undoes fpTable_undoes_ipTable b, permute_permute_of_undoes ipTable_undoes_fpTable b⟩

/-- Chunk `j` of `E`, entries 1-based: the cyclic run of six from input index `4j - 1` (R116). -/
theorem eTable_chunk : ∀ j < 8, ∀ i < 6, eTable.positions[6 * j + i]? = some ((4 * j + i + 31) % 32 + 1) := by decide

/-- Bits appended to the input are not selected by a table for the shorter input. -/
theorem permute_append {m k n : Nat} {t : Table m n} {padded : Table (m + k) n} (h : padded.positions = t.positions)
    (v : Vec m) (tail : Vec k) : permute (v ++ tail : Vec (m + k)) padded = permute v t := by
  refine permute_eq_of_forall_entry fun i p hp => ?_
  rw [h] at hp
  rw [permute_getMsbD_of_getElem? hp, BitVec.getMsbD_append, if_neg (by simpa using Table.pred_lt_of_getElem?_eq_some hp)]

/-- Settles O43: the chunks are read off the table, and no entry names an appended bit. -/
theorem expansionChunks : Obligations.ExpansionChunks :=
  fun r => ⟨fun j i hj hi => permute_getMsbD_of_getElem? (eTable_chunk j hj i hi) r,
    fun _ hpadded => permute_append hpadded r 0#16⟩

theorem permute_xor {m n : Nat} (t : Table m n) (a b : Vec m) :
    permute (a ^^^ b) t = permute a t ^^^ permute b t := by
  refine permute_eq_of_forall_entry fun i p hp => ?_
  simp only [BitVec.getMsbD_xor, permute_getMsbD_of_getElem? hp]

theorem permute_zero {m n : Nat} (t : Table m n) : permute (BitVec.zero m) t = BitVec.zero n :=
  permute_eq_of_forall_entry fun i p _ => by simp

/-- As every entry names a bit of the input, every table keeps all ones, not only the six. -/
theorem permute_allOnes {m n : Nat} (t : Table m n) : permute (BitVec.allOnes m) t = BitVec.allOnes n := by
  refine permute_eq_of_forall_entry fun i p hp => ?_
  simp [BitVec.getMsbD_allOnes, Table.pred_lt_of_getElem?_eq_some hp, Table.lt_of_getElem?_eq_some hp]

/-- Settles O44: selecting bits commutes with what acts on each bit alone. -/
theorem permuteIsLinear : Obligations.PermuteIsLinear :=
  ⟨fun _ _ => permute_xor, fun _ _ => permute_zero, permute_allOnes ipTable, permute_allOnes fpTable,
    permute_allOnes eTable, permute_allOnes pTable, permute_allOnes pc1Table, permute_allOnes pc2Table⟩

end Sys2Proof.Machine
end

section
namespace Sys2Proof.Machine

/-! ### The rotation of a half (R131) -/

/-- The value of a half rotated by less than its length: the bits shifted out return at the low end. -/
theorem toNat_rotl28 (v : KeyHalf) {s : Nat} (hs : s < 28) :
    (rotl28 v s).toNat = v.toNat * 2 ^ s % 2 ^ 28 + v.toNat / 2 ^ (28 - s) := by
  have hpow : 2 ^ 28 = 2 ^ (28 - s) * 2 ^ s := by rw [← Nat.pow_add, Nat.sub_add_cancel hs.le]
  have hhigh : v.toNat <<< s % 2 ^ 28 = (v.toNat % 2 ^ (28 - s)) <<< s := by
    rw [Nat.shiftLeft_eq, Nat.shiftLeft_eq, hpow, Nat.mul_mod_mul_right]
  have hlow : v.toNat >>> (28 - s) < 2 ^ s := by
    rw [Nat.shiftRight_eq_div_pow]
    exact Nat.div_lt_of_lt_mul (hpow ▸ v.isLt)
  rw [rotl28, BitVec.toNat_rotateLeft, Nat.mod_eq_of_lt hs, hhigh, ← Nat.shiftLeft_add_eq_or_of_lt hlow, ← hhigh,
    Nat.shiftLeft_eq, Nat.shiftRight_eq_div_pow]

/-- Settles O45: index and value hold for every amount below 28, and rotations add up. -/
theorem rotationOfHalves : Obligations.RotationOfHalves := by
  refine fun v => ⟨fun s hs => ⟨rotl28_getMsbD v s, toNat_rotl28 v ?_⟩, (rotl28_rotl28 v 1 1).symm⟩
  omega

/-! ### The schedule as a function (R136) -/

/-- `C0 ++ D0` is `pc1` of the key (R132, R136). -/
theorem join_initialHalves (key : Word) :
    joinKeyHalves (initialHalves key).1 (initialHalves key).2 = pc1 (vec64 key) := joinKeyHalves_halves _

theorem rotl28_zero (v : KeyHalf) : rotl28 v 0 = v := by
  refine Vec.ext_getMsbD fun i hi => ?_
  rw [rotl28_getMsbD v 0 i hi, Nat.add_zero, Nat.mod_eq_of_lt hi]

/-- The closed form: `n` rounds rotate by the sum of their amounts (R136). -/
theorem halvesAfter_eq_rotateHalves (key : Word) (n : Nat) :
    halvesAfter key n = rotateHalves (initialHalves key) (shiftTable.take n).sum := by
  have hzero : rotateHalves (initialHalves key) 0 = initialHalves key := by simp [rotateHalves, rotl28_zero]
  have h := foldl_rotateHalves (shiftTable.take n) (initialHalves key) 0
  rwa [hzero, Nat.zero_add] at h

/-- The cumulative amounts as R136 prints them. -/
theorem cumulativeAmounts_getElem? : ∀ i : Fin 16,
    [1, 2, 4, 6, 8, 10, 12, 14, 15, 17, 19, 21, 23, 25, 27, 28][i.val]? = some (shiftTable.take (i.val + 1)).sum := by
  decide

/-- Settles O13: the recursion of the halves, the selection, and their closed form. -/
theorem keyScheduleClosedForm : Obligations.KeyScheduleClosedForm := by
  refine fun key => ⟨join_initialHalves key, fun i => ⟨halvesAfter_succ key i, keySchedule_getElem key i⟩,
    fun i amount h => ?_⟩
  obtain rfl : (shiftTable.take (i.val + 1)).sum = amount := Option.some_inj.mp ((cumulativeAmounts_getElem? i).symm.trans h)
  exact halvesAfter_eq_rotateHalves key (i.val + 1)

/-! ### Keys with equal schedules, and keys with constant schedules (R138) -/

/-- No entry of `PC1` is a parity position 8, 16, ..., 64 (R118). -/
theorem pc1Table_entry_mod_eight : ∀ p ∈ pc1Table.positions, p % 8 ≠ 0 := by decide

/-- The parity bits `data[0], data[8], ..., data[56]` of a key do not reach `C0` and `D0` (R118, R132). -/
theorem initialHalves_eq_of_parity {key key' : Word} (h : ∀ b < 64, b % 8 ≠ 0 → key'.getLsbD b = key.getLsbD b) :
    initialHalves key' = initialHalves key := by
  have hpc1 : permute key' pc1Table = permute key pc1Table := by
    refine permute_eq_of_forall_entry fun i p hp => ?_
    obtain ⟨hpos, hle⟩ := Table.bounds_of_getElem?_eq_some hp
    have hmod := pc1Table_entry_mod_eight p (List.mem_of_getElem? hp)
    rw [permute_getMsbD_of_getElem? hp, BitVec.getMsbD_eq_getLsbD, BitVec.getMsbD_eq_getLsbD,
      h (64 - 1 - (p - 1)) (by omega) (by omega)]
  exact congrArg (fun cd => (leftKeyHalf cd, rightKeyHalf cd)) hpc1

/-- A schedule depends on the key only through `C0` and `D0` (R136). -/
theorem keySchedule_eq_of_initialHalves {key key' : Word} (h : initialHalves key' = initialHalves key) :
    keySchedule key' = keySchedule key := by
  simp only [keySchedule, halvesAfter, h]

/-- All zeros or all ones: a half that every rotation leaves as it is (R138). -/
abbrev UniformHalf (v : KeyHalf) : Prop := v = 0#28 ∨ v = 0xFFFFFFF#28

theorem rotl28_uniformHalf {v : KeyHalf} (h : UniformHalf v) (s : Nat) : rotl28 v s = v := by
  refine Vec.ext_getMsbD fun i hi => ?_
  rw [rotl28_getMsbD v s i hi]
  rcases h with rfl | rfl
  · simp
  · have hones (j : Nat) : (0xFFFFFFF#28).getMsbD j = decide (j < 28) := BitVec.getMsbD_allOnes
    simp [hones, hi, Nat.mod_lt]

/-- A key whose halves are uniform has one round key, `pc2(C0 ++ D0)` (R138). -/
theorem keySchedule_getElem_of_uniformHalves {key : Word} (hc : UniformHalf (initialHalves key).1)
    (hd : UniformHalf (initialHalves key).2) (i : Fin 16) : (keySchedule key)[i] = pc2 (pc1 (vec64 key)) := by
  have hstay : halvesAfter key (i.val + 1) = initialHalves key := by
    rw [halvesAfter_eq_rotateHalves, rotateHalves, rotl28_uniformHalf hc, rotl28_uniformHalf hd]
  rw [keySchedule_getElem, hstay, selectKey, join_initialHalves]

/-- A key whose `pc1` is the uniform vector `w` has only `pc2 w` for round keys (R138). -/
theorem keySchedule_getElem_of_pc1 {key : Word} {w : Vec 56} (hpc1 : pc1 (vec64 key) = w) (hc : UniformHalf (leftKeyHalf w))
    (hd : UniformHalf (rightKeyHalf w)) (i : Fin 16) : (keySchedule key)[i] = pc2 w := by
  subst hpc1
  exact keySchedule_getElem_of_uniformHalves hc hd i

theorem keySchedule_zeroKey (i : Fin 16) : (keySchedule 0x0000000000000000#64)[i] = 0x000000000000#48 :=
  (keySchedule_getElem_of_pc1 (permute_zero pc1Table) (by decide) (by decide) i).trans (permute_zero pc2Table)

theorem keySchedule_onesKey (i : Fin 16) : (keySchedule 0xFFFFFFFFFFFFFFFF#64)[i] = 0xFFFFFFFFFFFF#48 :=
  (keySchedule_getElem_of_pc1 (permute_allOnes pc1Table) (by decide) (by decide) i).trans (permute_allOnes pc2Table)

/-- Under 16 equal round keys the order in which they are used does not matter (R138, R181). -/
theorem desBlock_encrypt_eq_decrypt {ks : Vector RoundKey 16} (h : ∀ i j : Fin 16, ks[i] = ks[j]) (b : Block) :
    desBlock ks b .encrypt = desBlock ks b .decrypt := by
  have hround : roundStep ks .encrypt = roundStep ks .decrypt := by
    funext lr n
    rw [roundStep, roundStep, h (keyIndex .encrypt n) (keyIndex .decrypt n)]
  simp only [desBlock, blockHalvesAfter, hround]

/-- Settles O14: parity bits are never selected, and no rotation moves a uniform half. -/
theorem cornerKeys : Obligations.CornerKeys := by
  refine ⟨fun key key' h => keySchedule_eq_of_initialHalves (initialHalves_eq_of_parity h),
    fun i => ⟨keySchedule_zeroKey i, keySchedule_onesKey i⟩, fun key hc hd => ?_⟩
  have hequal (i j : Fin 16) : (keySchedule key)[i] = (keySchedule key)[j] := by
    rw [keySchedule_getElem_of_uniformHalves hc hd, keySchedule_getElem_of_uniformHalves hc hd]
  exact ⟨hequal, desBlock_encrypt_eq_decrypt hequal⟩

end Sys2Proof.Machine
end

section
namespace Sys2Proof.Machine

/-! ### The edges of LDKEY (R132 to R135) and the frame of an acceptance -/

/-- Settles O10. -/
theorem ldkeyAccepts : Obligations.LdkeyAccepts := by
  refine fun key s hp => ⟨⟨acceptKey key s, exec_ldkey_idle key hp, join_initialHalves key, rfl⟩, fun key' h => ?_⟩
  rw [exec_ldkey_idle key' hp, exec_ldkey_idle key hp, acceptKey, acceptKey, initialHalves_eq_of_parity h]

/-- Settles O11, from the rules of `keyTransition` for each register. -/
theorem keyScheduleTransition : Obligations.KeyScheduleTransition := by
  intro s hp hr
  refine ⟨_, step_of_transition (.keyRound hr hp), ?_, ?_, ?_, fun j hj => ?_, ?_, by simp⟩
  · simpa using rotl28_getMsbD s.c (shiftAmount s.cnt)
  · simpa using rotl28_getMsbD s.d (shiftAmount s.cnt)
  · simp [selectKey, rotateHalves]
  · have hne : s.cnt.val ≠ j.val := fun h => hj (Fin.ext h.symm)
    simp [Vector.getElem_set_ne, hne]
  · by_cases hc : s.cnt = 15
    · simp [hc]
    · have hval : s.cnt.val ≠ 15 := (cnt_succ_val hc).1.ne
      simp [hc, hval, hp, (cnt_succ_val hc).2]

/-- Settles O32: each acceptance leaves alone every register it does not name. -/
theorem acceptanceFrame : Obligations.AcceptanceFrame := by
  intro i s t hp ht
  rcases exec_cases i s with
    ⟨-, ⟨data, rfl⟩, he⟩ | ⟨-, key, rfl, he⟩ | ⟨-, hk, dir, block, hi, he⟩ | ⟨-, hk, hi, he⟩ | ⟨hb, -⟩
  · cases he.symm.trans ht
    simp
  · cases he.symm.trans ht
    simp [isKeyCommand]
  · cases he.symm.trans ht
    have hblock : isBlockCommand i = true := by rcases hi with ⟨rfl, -⟩ | ⟨rfl, -⟩ <;> rfl
    simp [hblock, hk]
  · cases he.symm.trans ht
    have hblock : isBlockCommand i = true := by rcases hi with ⟨block, rfl | rfl⟩ <;> rfl
    simp [hblock, hk]
  · exact absurd hp hb

end Sys2Proof.Machine
end

section
namespace Sys2Proof.Machine

/-! ### A command in progress under any waveform without reset (R255)

`FinishesIn` follows `advance`, which reads no port. Here the same run is taken by the clock edges themselves, while the
waveform is used up. -/

/-- The state `s` with the waveform `ws` at the coming edges. -/
def withInputs (s : State) (ws : List PortIn) : State := { s with inputs := ws }

@[simp] theorem withInputs_self (s : State) : withInputs s s.inputs = s := rfl

@[simp] theorem withInputs_phase (s : State) (ws : List PortIn) : (withInputs s ws).phase = s.phase := rfl

/-- No transition of a phase reads the waveform. -/
theorem advance_withInputs (s : State) (ws : List PortIn) : advance (withInputs s ws) = withInputs (advance s) ws := by
  cases hp : s.phase with
  | idle => rw [advance_idle hp, advance_idle (s := withInputs s ws) hp]
  | ks =>
    rw [advance_ks hp, advance_ks (s := withInputs s ws) hp]
    apply State.ext_fields <;> simp [withInputs]
  | rnd =>
    rw [advance_rnd hp, advance_rnd (s := withInputs s ws) hp]
    apply State.ext_fields <;> simp [withInputs, readKey]
  | fp =>
    rw [advance_fp hp, advance_fp (s := withInputs s ws) hp]
    rfl

/-- A busy edge without reset is the phase's own transition and uses up one port value; the waveform left is without reset for
one edge less. -/
theorem step_busy_withInputs {n : Nat} {s : State} {ws : List PortIn} (hb : s.phase ≠ .idle)
    (hws : ∀ p ∈ ws.take (n + 1), p.rst = false) :
    step (withInputs s ws) = .next (withInputs (advance s) ws.tail) ∧ ∀ p ∈ ws.tail.take n, p.rst = false := by
  have hnow : (portsNow (withInputs s ws)).rst = false := by
    cases ws with
    | nil => rfl
    | cons p rest => exact hws p List.mem_cons_self
  refine ⟨?_, fun p hp => hws p ?_⟩
  · rw [step_busy hnow hb, ← advance_withInputs]
    rfl
  · cases ws with
    | nil => simp at hp
    | cons q rest => exact List.mem_cons_of_mem q hp

/-- A command in progress ends as `FinishesIn` says, whatever is on the command ports. -/
theorem FinishesIn.runEdges_eq {n : Nat} {s t : State} (h : FinishesIn n s t) {ws : List PortIn}
    (hws : ∀ p ∈ ws.take n, p.rst = false) : runEdges n (withInputs s ws) = .next (withInputs t (ws.drop n)) := by
  induction h generalizing ws with
  | ready => rfl
  | edge hb _ ih =>
    obtain ⟨hstep, hrest⟩ := step_busy_withInputs hb hws
    rw [runEdges_succ _ hstep, ih hrest, List.drop_tail]

/-- Until then the core is busy, and it keeps what every transition from one busy state to another keeps. -/
theorem FinishesIn.runEdges_before {P : State → Prop}
    (hadvance : ∀ u, u.phase ≠ .idle → P u → (advance u).phase ≠ .idle → P (advance u))
    {n : Nat} {s t : State} (h : FinishesIn n s t) (hs : P s) {ws : List PortIn}
    (hws : ∀ p ∈ ws.take n, p.rst = false) {m : Nat} (hm : m < n) :
    ∃ u, runEdges m (withInputs s ws) = .next (withInputs u (ws.drop m)) ∧ u.phase ≠ .idle ∧ P u := by
  induction h generalizing ws m with
  | ready => exact absurd hm (Nat.not_lt_zero m)
  | @edge n s t hb hnext ih =>
    cases m with
    | zero => exact ⟨s, rfl, hb, hs⟩
    | succ m =>
      have hb' : (advance s).phase ≠ .idle := by
        cases hnext with
        | ready => omega
        | edge hb' => exact hb'
      obtain ⟨hstep, hrest⟩ := step_busy_withInputs hb hws
      obtain ⟨u, hu, hbu, hPu⟩ := ih (hadvance s hb hs hb') hrest (Nat.lt_of_succ_lt_succ hm)
      exact ⟨u, by rw [runEdges_succ _ hstep, hu, List.drop_tail], hbu, hPu⟩

/-- A key is being loaded, so none is valid (R130, R132). -/
def LoadingKey (s : State) : Prop := s.phase = .ks ∧ s.keyValid = false

/-- Only the last key-schedule transition sets `KEY_VALID`, and it makes the core ready (R135). -/
theorem loadingKey_advance {s : State} (h : LoadingKey s) (hb : (advance s).phase ≠ .idle) : LoadingKey (advance s) := by
  obtain ⟨hp, hv⟩ := h
  rw [advance_ks hp] at hb ⊢
  have hc : s.cnt ≠ 15 := fun hc => hb (by simp [hc])
  exact ⟨by simp [hc, hp], by simp [hc, hv]⟩

/-- Round key 15 is `pc2(C0 ++ D0)`, since the halves have made a full turn (R137). -/
theorem keySchedule_last (key : Word) : (keySchedule key)[(15 : Fin 16)] = pc2 (pc1 (vec64 key)) := by
  have hturn : halvesAfter key ((15 : Fin 16).val + 1) = initialHalves key := halvesAfter_sixteen key
  rw [keySchedule_getElem, hturn, selectKey, join_initialHalves]

/-- Settles O12: the accepting edge, and then the 16 key-schedule transitions under any waveform without reset. -/
theorem ldkeyCompletes : Obligations.LdkeyCompletes := by
  intro key s hp hn
  have hrun : FinishesIn 16 (acceptKey key s) (keyEffect key s) := keyLoadAfter_zero key s ▸ finishesIn_keyLoadAfter key s 0
  have hjoin : joinKeyHalves (keyEffect key s).c (keyEffect key s).d = pc1 (vec64 key) := join_initialHalves key
  refine ⟨acceptKey key s, withInputs (keyEffect key s) (s.inputs.drop 16), exec_ldkey_idle key hp, hrun.runEdges_eq hn,
    rfl, hjoin, (keySchedule_last key).trans (congrArg pc2 hjoin.symm), fun n hlt => ?_⟩
  obtain ⟨u, hu, hb, -, hv⟩ := hrun.runEdges_before (P := LoadingKey) (fun _ _ => loadingKey_advance) ⟨rfl, rfl⟩ hn hlt
  exact ⟨_, hu, by simpa [cmdReady] using hb, hv⟩

end Sys2Proof.Machine
end

section
namespace Sys2Proof.Machine

/-! ### The substitution tables (R153, R154) -/

theorem SBox.getElem?_eq_sboxRead (b : SBox) (i : Fin 64) : b.entries[i.val]? = some (sboxRead b i) :=
  List.getElem?_eq_getElem (i.isLt.trans_eq b.length_eq.symm)

/-- Every entry fits in a nibble (R51). -/
theorem sboxRead_lt (b : SBox) (i : Fin 64) : sboxRead b i < 16 := by
  have h := b.ok
  simp only [sboxOk, Bool.and_eq_true, decide_eq_true_eq, List.all_eq_true] at h
  obtain ⟨-, hlt⟩ := h
  exact hlt _ (List.getElem_mem _)

theorem bitAt_chunk (m48 : Vec 48) (j : Fin 8) {i : Nat} (hi : i < 6) :
    bitAt (chunk m48 j) i = bitAt m48 (6 * j.val + i) :=
  congrArg Bool.toNat (chunk_getMsbD m48 j i hi)

/-- The index of chunk `j`, by the bits of the whole input (R153). -/
theorem sboxIndex_chunk_val (m48 : Vec 48) (j : Fin 8) :
    (sboxIndex (chunk m48 j)).val =
      (bitAt m48 (6 * j) * 2 + bitAt m48 (6 * j + 5)) * 16 +
      (bitAt m48 (6 * j + 1) * 8 + bitAt m48 (6 * j + 2) * 4 + bitAt m48 (6 * j + 3) * 2 + bitAt m48 (6 * j + 4)) := by
  simp [sboxIndex, sboxRow, sboxCol, bitAt_chunk]

/-- A nibble holds its value most significant bit first (R154). -/
theorem substituteChunk_getMsbD (m48 : Vec 48) (j : Fin 8) {i : Nat} (hi : i < 4) :
    (substituteChunk m48 j).getMsbD i = (sboxRead (sboxTable j) (sboxIndex (chunk m48 j))).testBit (3 - i) := by
  have hlow : 4 - 1 - i < 4 := by omega
  rw [substituteChunk, BitVec.getMsbD_eq_getLsbD, BitVec.getLsbD_ofNat]
  simp [hi, hlow]

/-- Settles O46: the value read for chunk `j` is the entry in question, and nibble `j` of the result holds its bits. -/
theorem substitutionByRowAndColumn : Obligations.SubstitutionByRowAndColumn := by
  intro m48 j
  refine ⟨sboxRead (sboxTable j) (sboxIndex (chunk m48 j)), ?_, sboxRead_lt _ _, fun i hi => ?_⟩
  · rw [← sboxIndex_chunk_val]
    exact SBox.getElem?_eq_sboxRead _ _
  · rw [substitute_getMsbD m48 j i hi, substituteChunk_getMsbD m48 j hi]

/-! ### The Feistel round (R157, R158) -/

/-- Every table selects complemented bits of a complemented input (R120). -/
theorem permute_not {m n : Nat} (t : Table m n) (v : Vec m) : permute (~~~v) t = ~~~permute v t := by
  rw [← BitVec.xor_allOnes, permute_xor, permute_allOnes, BitVec.xor_allOnes]

/-- Settles O48: the two complements cancel in the input of the substitution. -/
theorem feistelIgnoresComplement : Obligations.FeistelIgnoresComplement := by
  intro r k
  have hinput : expand (~~~r) ^^^ ~~~k = expand r ^^^ k := by
    rw [expand, permute_not, ← expand, ← BitVec.not_xor_left, ← BitVec.not_xor_right, BitVec.not_not]
  rw [feistel, hinput, feistel]

/-- Settles O47: the old right half is kept as the new left half, and `f` of it cancels out of the new right half. -/
theorem roundIsInvertible : Obligations.RoundIsInvertible := by
  intro l r nl nr k h
  obtain ⟨rfl, rfl⟩ := Prod.mk.inj h
  refine ⟨rfl, ?_⟩
  rw [BitVec.xor_comm, ← BitVec.xor_assoc, BitVec.xor_self, BitVec.zero_xor]

end Sys2Proof.Machine
end

section
namespace Sys2Proof.Machine

/-! ### The block function (R175) -/

theorem keyIndex_val (dir : Dir) (n : Fin 16) :
    (keyIndex dir n).val = if dir = .encrypt then n.val else 15 - n.val := by
  cases dir <;> rfl

/-- `L0 ++ R0` is `ip` of the block (R172, R175). -/
theorem join_initialBlockHalves (b : Block) :
    joinHalves (initialBlockHalves b).1 (initialBlockHalves b).2 = ip b := joinHalves_halves (ip b)

/-- Settles O18: the halves before the first round, one round more, and the output. -/
theorem blockFunctionRounds : Obligations.BlockFunctionRounds := by
  refine fun ks b dir => ⟨?_, fun n idx hidx => ?_, rfl⟩
  · rw [blockHalvesAfter_zero, join_initialBlockHalves]
  · obtain rfl : idx = keyIndex dir n := Fin.ext (hidx.trans (keyIndex_val dir n).symm)
    exact blockHalvesAfter_succ ks b dir n

/-! ### Decryption undoes encryption (R179)

The block function of the other direction starts from the swapped halves of the last round and walks the same halves back. -/

/-- The other direction of a block command. -/
def Dir.opposite : Dir → Dir
  | .encrypt => .decrypt
  | .decrypt => .encrypt

/-- One direction takes the round keys in the reverse of the other's order (R173). -/
theorem keyIndex_opposite_rev (dir : Dir) (n : Fin 16) : keyIndex dir.opposite n.rev = keyIndex dir n := by
  refine Fin.ext ?_
  rw [keyIndex_val, keyIndex_val, Fin.val_rev]
  cases dir with
  | encrypt => simp [Dir.opposite]; omega
  | decrypt => simp [Dir.opposite]

/-- `ip` undoes the final `fp`, which has joined the right half before the left (R115, R174). -/
theorem initialBlockHalves_finalBlock (lr : Half × Half) : initialBlockHalves (finalBlock lr) = lr.swap := by
  obtain ⟨-, hip⟩ := finalInvertsInitial (joinHalves lr.2 lr.1)
  rw [initialBlockHalves, finalBlock, hip, leftHalf_join, rightHalf_join, Prod.swap]

/-- `fp` undoes the initial `ip` when the halves come swapped (R115). -/
theorem finalBlock_swap_initialBlockHalves (b : Block) : finalBlock (initialBlockHalves b).swap = b := by
  obtain ⟨hfp, -⟩ := finalInvertsInitial b
  rw [finalBlock, Prod.fst_swap, Prod.snd_swap, join_initialBlockHalves, hfp]

/-- A round under the same key takes swapped halves back (R157). -/
theorem feistelRound_swap (l r : Half) (k : RoundKey) :
    feistelRound (feistelRound l r k).2 (feistelRound l r k).1 k = (r, l) := by
  obtain ⟨-, hl⟩ := roundIsInvertible l r _ _ k rfl
  exact Prod.ext rfl ((BitVec.xor_comm _ _).trans hl.symm)

theorem roundStep_opposite_swap (ks : Vector RoundKey 16) (dir : Dir) (lr : Half × Half) (n : Fin 16) :
    roundStep ks dir.opposite (roundStep ks dir lr n).swap n.rev = lr.swap := by
  simp only [roundStep, keyIndex_opposite_rev]
  exact feistelRound_swap lr.1 lr.2 ks[keyIndex dir n]

/-- If the halves before a round back are the swapped halves after round `n`, those after it are the ones before round `n`. -/
theorem blockHalvesAfter_opposite_step {ks : Vector RoundKey 16} {b : Block} {dir : Dir} {n : Fin 16}
    (h : blockHalvesAfter ks (desBlock ks b dir) dir.opposite n.rev.val = (blockHalvesAfter ks b dir (n.val + 1)).swap) :
    blockHalvesAfter ks (desBlock ks b dir) dir.opposite (n.rev.val + 1) = (blockHalvesAfter ks b dir n.val).swap := by
  rw [blockHalvesAfter_succ, h, blockHalvesAfter_succ, roundStep_opposite_swap]

/-- After `16 - n` rounds back the halves are the swapped halves of `n` rounds forth (R179). -/
theorem blockHalvesAfter_opposite (ks : Vector RoundKey 16) (b : Block) (dir : Dir) (n : Fin 16) :
    blockHalvesAfter ks (desBlock ks b dir) dir.opposite (n.rev.val + 1) = (blockHalvesAfter ks b dir n.val).swap := by
  induction n using Fin.reverseInduction with
  | last => exact blockHalvesAfter_opposite_step ((blockHalvesAfter_zero ..).trans (initialBlockHalves_finalBlock _))
  | cast n ih =>
    have hrev : n.castSucc.rev.val = n.succ.rev.val + 1 := by simp [Fin.val_rev]; omega
    exact blockHalvesAfter_opposite_step (hrev ▸ ih)

/-- The other direction undoes a block function under every schedule (R179). -/
theorem desBlock_opposite (ks : Vector RoundKey 16) (b : Block) (dir : Dir) :
    desBlock ks (desBlock ks b dir) dir.opposite = b := by
  have hback : blockHalvesAfter ks (desBlock ks b dir) dir.opposite 16 = (blockHalvesAfter ks b dir 0).swap :=
    blockHalvesAfter_opposite ks b dir 0
  rw [desBlock, hback, blockHalvesAfter_zero, finalBlock_swap_initialBlockHalves]

/-- Settles O21. -/
theorem decryptionInvertsEncryption : Obligations.DecryptionInvertsEncryption :=
  fun ks b => ⟨desBlock_opposite ks b .encrypt, desBlock_opposite ks b .decrypt⟩

/-! ### Complementation (R181 (a))

Selecting bits commutes with inverting them, and in the round the inversions of half and round key cancel (R158). -/

/-- Both halves inverted. -/
def complementHalves {n : Nat} (p : Vec n × Vec n) : Vec n × Vec n := (~~~p.1, ~~~p.2)

/-- A part of an inverted vector, up to its most significant bit (`BitVec.extractLsb'_not_of_lt` excludes that bit). -/
theorem extractLsb'_not {n start len : Nat} (v : Vec n) (h : start + len ≤ n) :
    (~~~v).extractLsb' start len = ~~~v.extractLsb' start len := by
  refine BitVec.eq_of_getLsbD_eq fun i hi => ?_
  have hin : start + i < n := by omega
  simp [hi, hin]

theorem initialHalves_not (key : Word) : initialHalves (~~~key) = complementHalves (initialHalves key) := by
  have hpc1 : pc1 (keyVector (~~~key)) = ~~~pc1 (keyVector key) := permute_not pc1Table key
  rw [initialHalves, hpc1]
  exact Prod.ext (extractLsb'_not (pc1 (keyVector key)) (by decide)) (extractLsb'_not (pc1 (keyVector key)) (by decide))

theorem initialBlockHalves_not (b : Block) : initialBlockHalves (~~~b) = complementHalves (initialBlockHalves b) := by
  rw [initialBlockHalves, ip, permute_not]
  exact Prod.ext (extractLsb'_not (ip b) (by decide)) (extractLsb'_not (ip b) (by decide))

theorem rotl28_not (v : KeyHalf) (s : Nat) : rotl28 (~~~v) s = ~~~rotl28 v s := by
  refine Vec.ext_getMsbD fun i hi => ?_
  have hsrc : (i + s) % 28 < 28 := Nat.mod_lt _ (by decide)
  simp only [rotl28_getMsbD _ _ _ hi, BitVec.getMsbD_not, hi, hsrc]

/-- The halves of the complemented key stay complemented from round to round (R133). -/
theorem halvesAfter_not (key : Word) (n : Nat) : halvesAfter (~~~key) n = complementHalves (halvesAfter key n) := by
  rw [halvesAfter_eq_rotateHalves, halvesAfter_eq_rotateHalves, initialHalves_not]
  exact Prod.ext (rotl28_not _ _) (rotl28_not _ _)

theorem selectKey_complementHalves (cd : KeyHalf × KeyHalf) : selectKey (complementHalves cd) = ~~~selectKey cd := by
  have hjoin : joinKeyHalves (~~~cd.1) (~~~cd.2) = ~~~joinKeyHalves cd.1 cd.2 := BitVec.not_append.symm
  rw [selectKey, complementHalves, hjoin, pc2, permute_not, ← pc2, selectKey]

/-- The complement of a key has the complements of its round keys (R181). -/
theorem keySchedule_not (key : Word) (i : Fin 16) : (keySchedule (~~~key))[i] = ~~~(keySchedule key)[i] := by
  rw [keySchedule_getElem, keySchedule_getElem, halvesAfter_not, selectKey_complementHalves]

/-- Inverted halves under an inverted round key give inverted halves (R158). -/
theorem feistelRound_not (l r : Half) (k : RoundKey) :
    feistelRound (~~~l) (~~~r) (~~~k) = complementHalves (feistelRound l r k) := by
  rw [feistelRound, feistelIgnoresComplement, ← BitVec.not_xor_right, feistelRound, complementHalves]

theorem blockHalvesAfter_not {ks ks' : Vector RoundKey 16} (hks : ∀ i : Fin 16, ks'[i] = ~~~ks[i]) (b : Block)
    (dir : Dir) (n : Nat) (hn : n ≤ 16) :
    blockHalvesAfter ks' (~~~b) dir n = complementHalves (blockHalvesAfter ks b dir n) := by
  induction n with
  | zero => rw [blockHalvesAfter_zero, blockHalvesAfter_zero, initialBlockHalves_not]
  | succ n ih =>
    rw [blockHalvesAfter_succ ks b dir ⟨n, hn⟩, blockHalvesAfter_succ ks' (~~~b) dir ⟨n, hn⟩, ih (Nat.le_of_succ_le hn),
      roundStep, hks]
    exact feistelRound_not _ _ _

/-- Complemented round keys and a complemented block give the complemented result (R181). -/
theorem desBlock_not {ks ks' : Vector RoundKey 16} (hks : ∀ i : Fin 16, ks'[i] = ~~~ks[i]) (b : Block) (dir : Dir) :
    desBlock ks' (~~~b) dir = ~~~desBlock ks b dir := by
  have hjoin (l r : Half) : joinHalves (~~~l) (~~~r) = ~~~joinHalves l r := BitVec.not_append.symm
  rw [desBlock, blockHalvesAfter_not hks b dir 16 (Nat.le_refl 16), finalBlock, complementHalves, hjoin, fp, permute_not]
  rfl

/-- Settles O22: with equal round keys the two directions are one function, which therefore undoes itself. -/
theorem complementAndEqualKeys : Obligations.ComplementAndEqualKeys := by
  refine ⟨fun key b => desBlock_not (keySchedule_not key) b .encrypt, fun ks b h => ?_⟩
  have hsame := desBlock_encrypt_eq_decrypt h
  obtain ⟨hdec, henc⟩ := decryptionInvertsEncryption ks b
  exact ⟨hsame b, by rw [hsame (desBlock ks b .encrypt), hdec], by rw [← hsame (desBlock ks b .decrypt), henc]⟩

end Sys2Proof.Machine
end

section
namespace Sys2Proof.Machine

/-! ### The transition function and its single edges (R170 to R174, R176) -/

/-- Settles O3. -/
theorem stepRunsDecodedCommand : Obligations.StepRunsDecodedCommand :=
  fun _ => ⟨step_command, step_quiet, step_reset⟩

/-- The word placed by `withCommandWord` is the command of the next step. -/
theorem step_withCommandWord (s : State) (cw : CommandWord) :
    step (withCommandWord s cw) = exec (decode cw) { s with phase := .idle, cnt := 0, inputs := s.inputs.tail } := by
  have hports : portsNow (withCommandWord s cw) = presenting cw := rfl
  rw [step_command (by rw [hports, presenting_rst]) (by rw [hports, presenting_cmdValid]), hports, portWord_presenting]
  rfl

/-- Settles O4: a table width of 66 or more cuts nothing off a command word. -/
theorem placedWordIsRunNext : Obligations.PlacedWordIsRunNext := by
  intro s nbits w hbits hw
  have hwhole : w % 2 ^ nbits = w := Nat.mod_eq_of_lt (hw.trans_le (Nat.pow_le_pow_right (by decide) hbits))
  rw [State.withFetchWord, withTableWord, hwhole, step_withCommandWord]

/-- In every state the edge of a `NOP` is that of an edge without a command (R176). -/
theorem exec_nop (data : Word) (s : State) : exec (.nop data) s = .next (advance s) := by
  by_cases hp : s.phase = .idle
  · rw [exec_nop_idle data hp, advance_idle hp]
  · exact exec_busy _ hp

/-- Settles O9. -/
theorem nopCompletes : Obligations.NopCompletes := by
  refine ⟨fun data _ => exec_nop_idle data, fun data s => ?_⟩
  rw [step_command (by simp) (by simp), step_quiet (by simp) (by simp)]
  simp only [portsNow_withPorts, popInputs_withPorts, portWord_presenting, decode_encode, exec_nop]

/-- The command on the ports, by its operation code (R90, R91). -/
theorem decode_portWord (p : PortIn) : decode (portWord p) = decodeOp p.cmdOp p.cmdData := by
  rw [decode, portWord, opField_commandWord, dataField_commandWord]

/-- `KEY_VALID` decides what a block command's acceptance does (R170, R223). -/
theorem acceptBlock_eq (dir : Dir) (block : Word) (s : State) :
    acceptBlock dir block s = if s.keyValid = false then raiseNoKey s else ipTransition dir block s := by
  cases hk : s.keyValid with
  | true => simp [acceptBlock_key dir block hk]
  | false => simp [acceptBlock_noKey dir block hk]

/-- Settles O5: reset first, then the phase, and in IDLE `cmd_valid`, `cmd_op` and `KEY_VALID`. -/
theorem edgeIsTransitionFunction : Obligations.EdgeIsTransitionFunction := by
  intro s
  cases hr : (portsNow s).rst with
  | true => exact step_reset hr
  | false =>
    rw [if_neg Bool.false_ne_true]
    cases hp : s.phase with
    | ks => exact step_of_transition (.keyRound hr hp)
    | rnd => exact step_of_transition (.blockRound hr hp)
    | fp => exact step_of_transition (.final hr hp)
    | idle =>
      have hpop : (popInputs s).phase = .idle := hp
      cases hv : (portsNow s).cmdValid with
      | false => exact (step_quiet hr hv).trans (congrArg _ (advance_idle hpop))
      | true =>
        rw [step_command hr hv, decode_portWord]
        obtain hop | hop | hop | hop := op_cases (portsNow s).cmdOp
        · rw [hop, decodeOp_zero, exec_nop_idle _ hpop]
          rfl
        · rw [hop, decodeOp_one, exec_ldkey_idle _ hpop]
          rfl
        · rw [hop, decodeOp_two, exec_enc_idle _ hpop, acceptBlock_eq]
          rfl
        · rw [hop, decodeOp_three, exec_dec_idle _ hpop, acceptBlock_eq]
          rfl

/-- The accepting edge of a block command on a core with a key is the IP transition (R172). -/
theorem exec_blockCommand_key (dir : Dir) (block : Word) {s : State} (hp : s.phase = .idle) (hk : s.keyValid = true) :
    exec (blockCommand dir block) s = .next (ipTransition dir block s) := by
  rw [exec_blockCommand_idle dir block hp, acceptBlock_key dir block hk]

/-- Without a key that edge raises NoKey and does nothing else (R221). -/
theorem exec_blockCommand_noKey (dir : Dir) (block : Word) {s : State} (hp : s.phase = .idle) (hk : s.keyValid = false) :
    exec (blockCommand dir block) s = .next { s with errNoKey := true } := by
  rw [exec_blockCommand_idle dir block hp, acceptBlock_noKey dir block hk, raiseNoKey]

/-- Settles O15. -/
theorem blockCommandAccepts : Obligations.BlockCommandAccepts := fun block _ hp hk =>
  ⟨⟨_, exec_blockCommand_key .encrypt block hp hk, joinHalves_halves (ip (vec64 block)), rfl⟩,
    ⟨_, exec_blockCommand_key .decrypt block hp hk, joinHalves_halves (ip (vec64 block)), rfl⟩⟩

/-- Settles O16, from the rules of `roundTransition` for each register. -/
theorem roundTransitionEdge : Obligations.RoundTransition := by
  intro s idx hp hr hidx
  obtain rfl : idx = keyIndex s.dir s.cnt := Fin.ext (hidx.trans (keyIndex_val s.dir s.cnt).symm)
  refine ⟨_, step_of_transition (.blockRound hr hp), by simp, by simp [feistel, readKey], ?_, by simp⟩
  obtain ⟨hc, hphase, hcnt⟩ | ⟨hc, hphase, hcnt⟩ := roundTransition_sequence (s := popInputs s) hp
  · have h15 : s.cnt.val = 15 := hc
    rw [if_pos h15]
    exact ⟨congrArg Fin.val hcnt, hphase⟩
  · have hne : s.cnt.val ≠ 15 := hc.ne
    rw [if_neg hne]
    exact ⟨hcnt, hphase⟩

/-- Settles O17. -/
theorem finalTransitionEdge : Obligations.FinalTransition :=
  fun _ hp hr => step_of_transition (.final hr hp)

/-! ### A block command taken to its end (R177, R178, R262) -/

/-- Settles O36: `edgesLeft` edges, 17 at most, whatever is on the command ports. -/
theorem readyWithinSeventeenEdges : Obligations.ReadyWithinSeventeenEdges := by
  intro s hn
  obtain ⟨t, ht⟩ := exists_finishesIn s
  have hle := edgesLeft_le s
  have hrun := ht.runEdges_eq fun p hp => hn p (List.take_subset_take_left s.inputs hle hp)
  exact ⟨edgesLeft s, hle, _, hrun, (cmdReady_iff _).mpr ht.idle⟩

/-- No result is shown yet: `OUT_VALID = 0` and `OUT` is the block `out` of before the command (R177). -/
def NoResultYet (out : Block) (s : State) : Prop := s.outValid = false ∧ s.out = out

/-- Only the final transition writes `OUT` and `OUT_VALID`, and it makes the core ready (R174). -/
theorem noResultYet_advance {out : Block} {s : State} (hb : s.phase ≠ .idle) (h : NoResultYet out s)
    (hb' : (advance s).phase ≠ .idle) : NoResultYet out (advance s) := by
  cases hp : s.phase with
  | idle => contradiction
  | ks => simpa [advance_ks hp, NoResultYet] using h
  | rnd => simpa [advance_rnd hp, NoResultYet] using h
  | fp => simp [advance_fp hp] at hb'

/-- A block command on a core with a key, the accepting edge and the 17 after it, in either direction (R177, R178). -/
theorem blockCommand_completes (dir : Dir) (block : Word) {s : State} (hp : s.phase = .idle) (hk : s.keyValid = true)
    (hn : NoReset 17 s) :
    ∃ t₀ t, exec (blockCommand dir block) s = .next t₀ ∧ runEdges 17 t₀ = .next t ∧
      t = withInputs (finalTransition (blockRoundsDone dir block s)) (s.inputs.drop 17) ∧
      ∀ n < 17, ∃ u, runEdges n t₀ = .next u ∧ cmdReady u = false ∧ u.outValid = false ∧ u.out = s.out := by
  have hrun : FinishesIn 17 (ipTransition dir block s) (finalTransition (blockRoundsDone dir block s)) := by
    rw [← blockAfter_zero, finalTransition_blockRoundsDone dir block hk]
    exact finishesIn_blockAfter dir block hk 0
  refine ⟨ipTransition dir block s, _, exec_blockCommand_key dir block hp hk, hrun.runEdges_eq hn, rfl, fun n hlt => ?_⟩
  obtain ⟨u, hu, hb, hout⟩ :=
    hrun.runEdges_before (P := NoResultYet s.out) (fun _ => noResultYet_advance) ⟨rfl, rfl⟩ hn hlt
  exact ⟨_, hu, by simpa [cmdReady] using hb, hout⟩

/-- Settles O19. -/
theorem encCompletes : Obligations.EncCompletes := fun block _ hp =>
  ⟨blockCommand_completes .encrypt block hp, exec_blockCommand_noKey .encrypt block hp⟩

/-- Settles O20. -/
theorem decCompletes : Obligations.DecCompletes := fun block _ hp =>
  ⟨blockCommand_completes .decrypt block hp, exec_blockCommand_noKey .decrypt block hp⟩

end Sys2Proof.Machine
end

section
namespace Sys2Proof.Machine

/-! ### Texts on the core (R180, R205 to R208) -/

/-- No transition of a phase touches `ERR_NOKEY` (R25). -/
@[simp] theorem advance_errNoKey (s : State) : (advance s).errNoKey = s.errNoKey := by
  unfold advance
  split <;> simp

theorem FinishesIn.errNoKey_eq {n : Nat} {s t : State} (h : FinishesIn n s t) : t.errNoKey = s.errNoKey := by
  induction h with
  | ready => rfl
  | edge _ _ ih => rw [ih, advance_errNoKey]

/-- A block command on a core with a key leaves nothing behind that a later command reads (R180). -/
theorem blockEffect_key (dir : Dir) (block : Word) {s : State} (hk : s.keyValid = true) :
    (blockEffect dir block s).phase = .idle ∧ (blockEffect dir block s).keyValid = true ∧
      (blockEffect dir block s).k = s.k ∧ (blockEffect dir block s).errNoKey = s.errNoKey := by
  simp [blockEffect, hk]

/-- Its result (R177, R178). -/
theorem blockEffect_result (dir : Dir) (block : Word) {s : State} (hk : s.keyValid = true) :
    (blockEffect dir block s).outValid = true ∧ outData (blockEffect dir block s) = desBlock s.k (vec64 block) dir := by
  simp [blockEffect, hk, blockVector, outData, val64]

/-- The core after the block commands for `blocks`, in order, taken as wholes. -/
def blocksEffect (dir : Dir) (blocks : List Word) (s : State) : State :=
  blocks.foldl (fun t b => blockEffect dir b t) s

/-- The core is ready again after them, and `ERR_NOKEY` is as it was. -/
theorem blocksEffect_key (dir : Dir) (blocks : List Word) {s : State} (hk : s.keyValid = true) (hp : s.phase = .idle) :
    (blocksEffect dir blocks s).phase = .idle ∧ (blocksEffect dir blocks s).errNoKey = s.errNoKey := by
  induction blocks generalizing s with
  | nil => exact ⟨hp, rfl⟩
  | cons b rest ih =>
    obtain ⟨hp', hk', -, herr⟩ := blockEffect_key dir b hk
    obtain ⟨hphase, herr'⟩ := ih hk' hp'
    exact ⟨hphase, herr'.trans herr⟩

/-- The lines of a message after its `LDKEY`: each block command and a READ of its result (R96, R205). -/
def blockLines (dir : Dir) (blocks : List Word) : List Line :=
  blocks.flatMap fun b => [.command (blockCommand dir b), .read]

theorem commandEffect_blockCommand (dir : Dir) (block : Word) (s : State) :
    commandEffect (blockCommand dir block) s = blockEffect dir block s := by
  cases dir <;> rfl

/-- READ waits for the command in progress and takes its result (R96, R256). -/
theorem hostRead_waitsFor {s t : State} (h : WaitsFor s t) (hout : t.outValid = true) :
    hostRead s = .ok (t, outData t) := by
  simp [hostRead, hostWait_waitsFor h, Except.bind, outValidPort, hout]

/-- One block more at the front of other lines: they run where its result has been taken. -/
theorem runLines_block_read (dir : Dir) (b : Word) {lines : List Line} {s t u : State} {taken : List Word}
    (h : WaitsFor s t) (hk : t.keyValid = true) (hlines : runLines lines (blockEffect dir b t) = .ok (u, taken)) :
    runLines (.command (blockCommand dir b) :: .read :: lines) s = .ok (u, desBlock t.k (vec64 b) dir :: taken) := by
  obtain ⟨v, hissue, hv⟩ := hostIssue_waitsFor (blockCommand dir b) h
  rw [commandEffect_blockCommand] at hv
  obtain ⟨hvalid, hdata⟩ := blockEffect_result dir b hk
  have hread := hostRead_waitsFor hv hvalid
  rw [hdata] at hread
  simp [runLines, runLine, hissue, hread, hlines, Except.bind, Except.map]

/-- The blocks of a message on a core that has a key when it becomes ready: every result is the block function of that block
alone (R180). -/
theorem runLines_blockLines (dir : Dir) (blocks : List Word) (hne : blocks ≠ []) {s t : State} (h : WaitsFor s t)
    (hk : t.keyValid = true) : runLines (blockLines dir blocks) s =
      .ok (blocksEffect dir blocks t, blocks.map fun b => desBlock t.k (vec64 b) dir) := by
  induction blocks generalizing s t with
  | nil => contradiction
  | cons b rest ih =>
    refine runLines_block_read dir b h hk ?_
    cases rest with
    | nil => rfl
    | cons b' rest =>
      obtain ⟨hp', hk', hkeys, -⟩ := blockEffect_key dir b hk
      have hready : WaitsFor (blockEffect dir b t) (blockEffect dir b t) := ⟨0, Nat.zero_le _, .ready hp'⟩
      have hrest := ih (List.cons_ne_nil b' rest) hready hk'
      rwa [hkeys] at hrest

/-- A message with blocks: the core waits for the key's effect and then takes the blocks (R180, R205). -/
theorem runLines_messageLines (dir : Dir) (key : Word) (blocks : List Word) (hne : blocks ≠ []) {s t : State}
    (h : WaitsFor s t) : runLines (messageLines (blockCommand dir) key blocks) s =
      .ok (blocksEffect dir blocks (keyEffect key t), blocks.map fun b => desBlock (keySchedule key) (vec64 b) dir) := by
  obtain ⟨u, hissue, hu⟩ := hostIssue_waitsFor (.ldkey key) h
  have hblocks := runLines_blockLines dir blocks hne hu rfl
  have hlines : messageLines (blockCommand dir) key blocks = .command (.ldkey key) :: blockLines dir blocks := rfl
  simp [hlines, runLines, runLine, hissue, hblocks, commandEffect, Except.bind, Except.map, keyEffect]

@[simp] theorem blockToBytes_length (b : Word) : (blockToBytes b).length = 8 := by simp [blockToBytes]

theorem blocksToText_length (blocks : List Word) : (blocksToText blocks).length = 8 * blocks.length := by
  simp [blocksToText, Nat.mul_comm]

/-- Eight characters a block, the last block padded (R200 to R202). -/
theorem cutBlocks_length : ∀ text : List Nat, (cutBlocks text).length = (text.length + 7) / 8
  | [] | [_] | [_, _] | [_, _, _] | [_, _, _, _] | [_, _, _, _, _] | [_, _, _, _, _, _] | [_, _, _, _, _, _, _] => by
    simp [cutBlocks]
  | _ :: _ :: _ :: _ :: _ :: _ :: _ :: _ :: rest => by
    simp only [cutBlocks, List.length_cons, cutBlocks_length rest]
    omega

theorem cutBlocks_ne_nil {text : List Nat} (h : text ≠ []) : cutBlocks text ≠ [] := by
  have hlen := cutBlocks_length text
  have hpos := List.length_pos_iff.mpr h
  refine List.ne_nil_of_length_pos ?_
  omega

theorem keyOk_toNat (key : Word) : keyOk (key.toNat : Int) = true := by
  have h := key.isLt
  simp only [keyOk, Bool.and_eq_true, decide_eq_true_eq]
  omega

theorem zext64_toNat (key : Word) : zext64 key.toNat = key := by simp [zext64]

/-- A legal text under a key that fits the port goes to the core as one message; without blocks nothing is issued (R202,
R205). -/
theorem cryptText_legal (command : Word → Instr) {text : List Nat} (key : Word) (s : State) (htext : textOk text = true) :
    cryptText command text key.toNat s = if (cutBlocks text).isEmpty then .ok (s, [])
      else (runLines (messageLines command key (cutBlocks text)) s).map fun p => (p.1, blocksToText p.2) := by
  simp [cryptText, textToBlocks, htext, keyOk_toNat, zext64_toNat]

/-- A text operation in either direction (R205, R206, R225). -/
theorem cryptText_blockwise (dir : Dir) {text : List Nat} (key : Word) (s : State) (htext : textOk text = true) :
    ∃ t, cryptText (blockCommand dir) text key.toNat s =
        .ok (t, blocksToText ((cutBlocks text).map fun b => desBlock (keySchedule key) (vec64 b) dir)) ∧
      t.errNoKey = s.errNoKey ∧ (text ≠ [] → GoodFinal t = !s.errNoKey) := by
  rw [cryptText_legal _ _ _ htext]
  by_cases hempty : text = []
  · subst hempty
    exact ⟨s, rfl, rfl, fun h => absurd rfl h⟩
  have hne := cutBlocks_ne_nil hempty
  obtain ⟨u, n, hn, hu⟩ := exists_waitsFor s
  have hrun := runLines_messageLines dir key (cutBlocks text) hne ⟨n, hn, hu⟩
  obtain ⟨hphase, herr⟩ := blocksEffect_key dir (cutBlocks text) (s := keyEffect key u) rfl rfl
  have herr' := herr.trans hu.errNoKey_eq
  refine ⟨blocksEffect dir (cutBlocks text) (keyEffect key u), ?_, herr', fun _ => ?_⟩
  · rw [if_neg (by simpa using hne), hrun]
    rfl
  · rw [GoodFinal, RunEnded, (cmdReady_iff _).mpr hphase, Faulted, herr', Bool.true_and]

/-- Settles O52. -/
theorem textOperationsAreBlockwise : Obligations.TextOperationsAreBlockwise := fun text key s htext =>
  ⟨cryptText_blockwise .encrypt key s htext, cryptText_blockwise .decrypt key s htext, blocksToText_length,
    cutBlocks_length text⟩

end Sys2Proof.Machine
end

section
namespace Sys2Proof.Machine

/-! ### The Bit Converter (R200 to R204, R207)

A block is a number with eight digits to the base 256, so that it and its characters determine each other; a text is cut into
groups of eight characters and a last, shorter one. -/

/-- The characters of a block as digits, the most significant first (R203). -/
theorem blockToBytes_eq_digits (b : Word) : blockToBytes b =
    [b.toNat / 256 ^ 7 % 256, b.toNat / 256 ^ 6 % 256, b.toNat / 256 ^ 5 % 256, b.toNat / 256 ^ 4 % 256,
      b.toNat / 256 ^ 3 % 256, b.toNat / 256 ^ 2 % 256, b.toNat / 256 % 256, b.toNat % 256] := by
  simp [blockToBytes, List.range_succ, Nat.shiftRight_eq_div_pow]

theorem blockToBytes_bytesToBlock {bytes : List Nat} (hlen : bytes.length = 8) (hbytes : textOk bytes = true) :
    blockToBytes (bytesToBlock bytes) = bytes := by
  match bytes, hlen with
  | [c0, c1, c2, c3, c4, c5, c6, c7], _ =>
    simp only [textOk, List.all_cons, Bool.and_eq_true, decide_eq_true_eq] at hbytes
    simp only [blockToBytes_eq_digits, bytesToBlock, BitVec.toNat_ofNat, List.foldl_cons, List.foldl_nil, List.cons.injEq,
      and_true]
    omega

theorem bytesToBlock_blockToBytes (b : Word) : bytesToBlock (blockToBytes b) = b := by
  have hb := b.isLt
  apply BitVec.eq_of_toNat_eq
  simp only [blockToBytes_eq_digits, bytesToBlock, BitVec.toNat_ofNat, List.foldl_cons, List.foldl_nil]
  omega

@[simp] theorem textOk_append (a b : List Nat) : textOk (a ++ b) = (textOk a && textOk b) := List.all_append

/-- What the Bit Converter writes is a legal text (R203). -/
theorem textOk_blocksToText (blocks : List Word) : textOk (blocksToText blocks) = true := by
  have hdigit (n : Nat) : n % 256 ≤ 255 := Nat.le_of_lt_succ (Nat.mod_lt n (by decide))
  simp [textOk, blocksToText, blockToBytes_eq_digits, hdigit]

/-- A short last group is one block, padded (R201). -/
theorem cutBlocks_short {group : List Nat} (hne : group ≠ []) (hlen : group.length < 8) :
    cutBlocks group = [bytesToBlock (padGroup group)] :=
  cutBlocks.eq_3 group hne (by rintro _ _ _ _ _ _ _ _ _ rfl; simp only [List.length_cons] at hlen; omega)

/-- A group of eight characters in front is one block more (R200). -/
theorem cutBlocks_append {group : List Nat} (hlen : group.length = 8) (rest : List Nat) :
    cutBlocks (group ++ rest) = bytesToBlock group :: cutBlocks rest := by
  match group, hlen with
  | [_, _, _, _, _, _, _, _], _ => rfl

theorem blocksToText_cons (b : Word) (rest : List Word) : blocksToText (b :: rest) = blockToBytes b ++ blocksToText rest :=
  List.flatMap_cons

/-- Blocks written as characters are cut into the same blocks (R200, R203). -/
theorem cutBlocks_blocksToText (blocks : List Word) : cutBlocks (blocksToText blocks) = blocks := by
  induction blocks with
  | nil => rfl
  | cons b rest ih => rw [blocksToText_cons, cutBlocks_append (blockToBytes_length b), bytesToBlock_blockToBytes, ih]

/-- The characters that fill up the last group of a text (R201, R204). -/
abbrev padding (text : List Nat) : List Nat := List.replicate ((8 - text.length % 8) % 8) Config.padByte

theorem padding_append {group : List Nat} (hlen : group.length = 8) (rest : List Nat) :
    padding (group ++ rest) = padding rest := by
  rw [padding, List.length_append, hlen, Nat.add_mod_left]

theorem padGroup_eq {group : List Nat} (hne : group ≠ []) (hlen : group.length < 8) :
    padGroup group = group ++ padding group := by
  have hpos := List.length_pos_iff.mpr hne
  rw [padGroup, padding, Nat.mod_eq_of_lt hlen, Nat.mod_eq_of_lt (by omega)]

theorem textOk_padding (text : List Nat) : textOk (padding text) = true := by
  simp [textOk, Config.padByte]

/-- A text comes back with its padding, which is never stripped (R204). -/
theorem blocksToText_cutBlocks (text : List Nat) (htext : textOk text = true) :
    blocksToText (cutBlocks text) = text ++ padding text := by
  induction hn : text.length using Nat.strong_induction_on generalizing text with | _ n ih
  by_cases hempty : text = []
  · subst hempty
    rfl
  by_cases hlen : text.length < 8
  · have hpad := padGroup_eq hempty hlen
    have hpadLen : (padGroup text).length = 8 := by
      rw [padGroup, List.length_append, List.length_replicate]
      omega
    have hpadOk : textOk (padGroup text) = true := by
      rw [hpad, textOk_append, htext, textOk_padding, Bool.true_and]
    rw [cutBlocks_short hempty hlen, blocksToText_cons, blockToBytes_bytesToBlock hpadLen hpadOk, hpad]
    exact List.append_nil _
  · obtain ⟨group, rest, hgroup, rfl⟩ : ∃ group rest, group.length = 8 ∧ text = group ++ rest :=
      ⟨text.take 8, text.drop 8, by rw [List.length_take]; omega, (List.take_append_drop 8 text).symm⟩
    rw [textOk_append, Bool.and_eq_true] at htext
    obtain ⟨hgroupOk, hrestOk⟩ := htext
    rw [List.length_append] at hn
    rw [cutBlocks_append hgroup, blocksToText_cons, blockToBytes_bytesToBlock hgroup hgroupOk,
      ih rest.length (by omega) rest hrestOk rfl, padding_append hgroup, List.append_assoc]

/-- Settles O51. -/
theorem bitConverterRoundTrip : Obligations.BitConverterRoundTrip := fun text htext =>
  ⟨cutBlocks text, if_pos htext, cutBlocks_length text, blocksToText_cutBlocks text htext⟩

/-! ### Refusals of the host (R207) -/

theorem cryptText_encodingError (command : Word → Instr) {text : List Nat} (key : Int) (s : State)
    (htext : textOk text = false) : cryptText command text key s = .error .encodingError := by
  simp [cryptText, textToBlocks, htext]

theorem cryptText_keyOutOfRange (command : Word → Instr) {text : List Nat} {key : Int} (s : State)
    (htext : textOk text = true) (hkey : keyOk key = false) : cryptText command text key s = .error .keyOutOfRange := by
  simp [cryptText, textToBlocks, htext, hkey]

/-- Settles O54. -/
theorem hostRefusals : Obligations.HostRefusals := by
  intro text key s
  constructor
  · rintro ⟨c, hc, hlarge⟩
    have htext : textOk text = false := List.all_eq_false.mpr ⟨c, hc, by simpa using hlarge⟩
    exact ⟨cryptText_encodingError _ key s htext, cryptText_encodingError _ key s htext⟩
  · intro hsmall hrange
    have htext : textOk text = true := List.all_eq_true.mpr fun c hc => decide_eq_true (hsmall c hc)
    have hkey : keyOk key = false := by
      rw [keyOk, Bool.and_eq_false_iff, decide_eq_false_iff_not, decide_eq_false_iff_not]
      omega
    exact ⟨cryptText_keyOutOfRange _ s htext hkey, cryptText_keyOutOfRange _ s htext hkey⟩

end Sys2Proof.Machine
end

section
namespace Sys2Proof.Machine

/-! ### Decrypting what was encrypted (R205, R206, R209) -/

/-- The block function of one block under a key (R175, R180). -/
abbrev blockUnder (dir : Dir) (key : Word) (block : Word) : Word := desBlock (keySchedule key) (vec64 block) dir

/-- Block by block the other direction undoes the first (R179). -/
theorem map_blockUnder_opposite (dir : Dir) (key : Word) (blocks : List Word) :
    (blocks.map (blockUnder dir key)).map (blockUnder dir.opposite key) = blocks := by
  have hback (b : Word) : blockUnder dir.opposite key (blockUnder dir key b) = b := desBlock_opposite (keySchedule key) b dir
  simp [Function.comp_def, hback]

/-- The second text operation, in the other direction, gives the first one's text and its padding (R209). -/
theorem cryptText_opposite (dir : Dir) {text : List Nat} (key : Word) (s : State) (htext : textOk text = true) :
    ∃ u, cryptText (blockCommand dir.opposite) (blocksToText ((cutBlocks text).map (blockUnder dir key))) key.toNat s =
        .ok (u, text ++ padding text) ∧
      u.errNoKey = s.errNoKey ∧ (text ≠ [] → GoodFinal u = !s.errNoKey) := by
  obtain ⟨u, hrun, herr, hgood⟩ := cryptText_blockwise dir.opposite key s
    (textOk_blocksToText ((cutBlocks text).map (blockUnder dir key)))
  rw [cutBlocks_blocksToText, map_blockUnder_opposite, blocksToText_cutBlocks text htext] at hrun
  refine ⟨u, hrun, herr, fun hne => hgood fun hempty => cutBlocks_ne_nil hne ?_⟩
  simpa [cutBlocks_blocksToText, cutBlocks] using congrArg cutBlocks hempty

/-- Settles O53: encryption is blockwise on every core, and decryption undoes it. -/
theorem encryptThenDecrypt : Obligations.EncryptThenDecrypt := by
  intro text key s s' htext
  obtain ⟨t, henc, ht, htgood⟩ := cryptText_blockwise .encrypt key s htext
  obtain ⟨t', henc', ht', -⟩ := cryptText_blockwise .encrypt key s' htext
  obtain ⟨u, hdec, hu, hugood⟩ := cryptText_opposite .encrypt key t htext
  refine ⟨t, _, henc, ht, ⟨t', henc', ht'⟩, ⟨u, hdec, hu.trans ht, fun hne hs => ?_⟩,
    fun hexact => ⟨u, ?_⟩, ?_⟩
  · rw [htgood hne, hugood hne, ht, hs]
    exact ⟨rfl, rfl⟩
  · rw [padding, hexact, Nat.sub_zero, Nat.mod_self, List.replicate_zero, List.append_nil] at hdec
    exact hdec
  · rintro rfl
    obtain ⟨v, hv, -⟩ := cryptText_blockwise .decrypt key s' htext
    exact ⟨rfl, v, hv⟩

end Sys2Proof.Machine
end

section
namespace Sys2Proof.Machine

/-! ### Blocks spread over several cores (R210, R232) -/

/-- Lines after other lines run where those have ended. -/
theorem runLines_append (as bs : List Line) (s : State) : runLines (as ++ bs) s =
    (runLines as s).bind fun p => (runLines bs p.1).map fun q => (q.1, p.2 ++ q.2) := by
  induction as generalizing s with
  | nil => cases h : runLines bs s <;> simp [runLines, h, Except.bind, Except.map]
  | cons a as ih =>
    cases ha : runLine a s with
    | error e => simp [runLines, ha, Except.bind]
    | ok p =>
      cases has : runLines as p.1 with
      | error e => simp [runLines, ha, has, ih, Except.bind, Except.map]
      | ok q => cases hbs : runLines bs q.1 <;> simp [runLines, ha, has, hbs, ih, Except.bind, Except.map]

/-- A WAIT after lines that end on a ready core. -/
theorem runLines_append_wait {lines : List Line} {s t : State} {taken : List Word} (h : runLines lines s = .ok (t, taken))
    (hp : t.phase = .idle) : runLines (lines ++ [.wait]) s = .ok (t, taken) := by
  simp [runLines_append, h, runLines, runLine, hostWait_ready hp, Except.bind, Except.map]

/-- The part of one core, with blocks or without, and the WAIT for its end (R205, R260). -/
theorem runLines_messageLines_wait (dir : Dir) (key : Word) (blocks : List Word) {s t : State} (h : WaitsFor s t) :
    runLines (messageLines (blockCommand dir) key blocks ++ [.wait]) s =
      .ok (blocksEffect dir blocks (keyEffect key t), blocks.map (blockUnder dir key)) := by
  by_cases hempty : blocks = []
  · subst hempty
    exact runLines_waitsFor [.ldkey key] h
  · obtain ⟨hphase, -⟩ := blocksEffect_key dir blocks (s := keyEffect key t) rfl rfl
    exact runLines_append_wait (runLines_messageLines dir key blocks hempty h) hphase

/-- A core's part taken as a whole: the blockwise results, and a good final state unless it started faulted (R225). -/
theorem runLines_part (dir : Dir) (key : Word) (part : State × List Word) :
    ∃ t, runLines (messageLines (blockCommand dir) key part.2 ++ [.wait]) part.1 =
        .ok (t, part.2.map (blockUnder dir key)) ∧ GoodFinal t = !part.1.errNoKey := by
  obtain ⟨u, n, hn, hu⟩ := exists_waitsFor part.1
  obtain ⟨hphase, herr⟩ := blocksEffect_key dir part.2 (s := keyEffect key u) rfl rfl
  refine ⟨_, runLines_messageLines_wait dir key part.2 ⟨n, hn, hu⟩, ?_⟩
  have herr' := herr.trans hu.errNoKey_eq
  rw [GoodFinal, RunEnded, (cmdReady_iff _).mpr hphase, Faulted, herr', Bool.true_and]

/-- Each core answers its own part block by block, whatever the others do (R210, R232); `lastState` names the state
that a core with its part ends in. -/
theorem runCores_blockwise (dir : Dir) (key : Word) : ∃ lastState : State × List Word → State,
    (∀ part, GoodFinal (lastState part) = !part.1.errNoKey) ∧
    ∀ parts, runCores (blockCommand dir) key parts =
      .ok (parts.map fun part => (lastState part, part.2.map (blockUnder dir key))) := by
  choose lastState hrun hgood using runLines_part dir key
  exact ⟨lastState, hgood, fun parts => runCores_ok _ _ _ parts fun part _ => hrun part⟩

/-- Consecutive parts, in either direction (R210). -/
theorem spreadBlocks_blockwise (dir : Dir) (key : Word) (parts : List (State × List Word)) :
    ∃ cores, spreadBlocks (blockCommand dir) key parts =
        .ok (cores, (parts.flatMap fun part => part.2).map (blockUnder dir key)) ∧
      cores.map GoodFinal = parts.map fun part => !part.1.errNoKey := by
  obtain ⟨lastState, hgood, hrun⟩ := runCores_blockwise dir key
  refine ⟨parts.map lastState, ?_, by simp [hgood]⟩
  simp [spreadBlocks, hrun parts, Except.map, List.flatMap_map, List.map_flatMap, Function.comp_def]

/-- Settles O55. -/
theorem spreadBlocksGiveSameResults : Obligations.SpreadBlocksGiveSameResults := fun key parts =>
  ⟨spreadBlocks_blockwise .encrypt key parts, spreadBlocks_blockwise .decrypt key parts⟩

/-- Any plan, in either direction: results put back in input order are the results of the blocks in input order (R210). -/
theorem spreadPlan_blockwise (dir : Dir) (key : Word) (cores : List State) (plan : List (Fin cores.length × Word)) :
    ∃ after, spreadPlan (blockCommand dir) key cores plan =
        .ok (after, (plan.map fun entry => entry.2).map (blockUnder dir key)) ∧
      after.map GoodFinal = cores.map fun core => !core.errNoKey := by
  obtain ⟨lastState, hgood, hrun⟩ := runCores_blockwise dir key
  have horder := inInputOrder_blocksOfCore (blockUnder dir key) plan
    ((List.finRange cores.length).map fun c => (blocksOfCore plan c).map (blockUnder dir key)) (by simp)
  refine ⟨(List.finRange cores.length).map fun c => lastState (cores[c], blocksOfCore plan c), ?_, ?_⟩
  · simp [spreadPlan, hrun, Function.comp_def, horder, Except.bind, Except.map]
  · conv_rhs => rw [← List.map_getElem_finRange cores]
    simp only [List.map_map, Function.comp_def, hgood, Fin.getElem_fin]

/-- A text's blocks spread by a plan, in either direction, and the text operation on one core (R205, R206, R210). -/
theorem spreadPlan_text (dir : Dir) {text : List Nat} (key : Word) (s : State) {cores : List State}
    {plan : List (Fin cores.length × Word)} (htext : textOk text = true)
    (hplan : (plan.map fun entry => entry.2) = cutBlocks text) :
    ∃ after results, spreadPlan (blockCommand dir) key cores plan = .ok (after, results) ∧
      results = (cutBlocks text).map (blockUnder dir key) ∧
      (∃ t, cryptText (blockCommand dir) text key.toNat s = .ok (t, blocksToText results)) ∧
      after.map GoodFinal = cores.map fun core => !core.errNoKey := by
  obtain ⟨after, hspread, hgood⟩ := spreadPlan_blockwise dir key cores plan
  obtain ⟨t, hone, -⟩ := cryptText_blockwise dir key s htext
  rw [hplan] at hspread
  exact ⟨after, _, hspread, rfl, ⟨t, hone⟩, hgood⟩

/-- Settles O57: the plan's results are the blockwise ones, and so are those of one core. -/
theorem anyPlanGivesSameResults : Obligations.AnyPlanGivesSameResults := fun _ key s _ _ htext hplan =>
  ⟨spreadPlan_text .encrypt key s htext hplan, spreadPlan_text .decrypt key s htext hplan⟩

end Sys2Proof.Machine
end

section
namespace Sys2Proof.Machine

/-! ### The fault NoKey and programs of commands (R221, R224, R225, R234, R260) -/

/-- Settles O23: without a key a block command's edge is the fault entry, and the flag is not what makes a core ready. -/
theorem noKeyFaultSetsOnlyItsFlag : Obligations.NoKeyFaultSetsOnlyItsFlag := fun block _ hp hk =>
  ⟨exec_blockCommand_noKey .encrypt block hp hk, exec_blockCommand_noKey .decrypt block hp hk, (cmdReady_iff _).mpr hp⟩

/-- Neither reset nor a command is on the ports at the next `n` edges. -/
def QuietPorts (n : Nat) (s : State) : Prop := ∀ p ∈ s.inputs.take n, p.rst = false ∧ p.cmdValid = false

theorem quietPorts_succ {n : Nat} {s : State} (h : QuietPorts (n + 1) s) :
    (portsNow s).rst = false ∧ (portsNow s).cmdValid = false ∧ QuietPorts n (popInputs s) := by
  unfold QuietPorts portsNow at *
  rw [popInputs_inputs]
  cases hi : s.inputs with
  | nil => simp
  | cons p rest => simpa [hi, and_assoc] using h

/-- With nothing presented, an edge of an IDLE core only uses up its port values (R234). -/
theorem step_idle_quiet {s : State} (hp : s.phase = .idle) (hr : (portsNow s).rst = false)
    (hv : (portsNow s).cmdValid = false) : step s = .next (popInputs s) := by
  rw [step_quiet hr hv, advance_idle (by simpa using hp)]

/-- Settles O35, by induction on the number of edges. -/
theorem idleCoreKeepsEverything : Obligations.IdleCoreKeepsEverything := by
  intro n s hp (hq : QuietPorts n s)
  induction n generalizing s with
  | zero => rfl
  | succ n ih =>
    obtain ⟨hr, hv, hrest⟩ := quietPorts_succ hq
    rw [runEdges_succ n (step_idle_quiet hp hr hv), ih (popInputs s) hp hrest, popInputs_inputs, List.drop_tail]
    rfl

/-- The commands of a program taken as wholes, one after the other. -/
def programEffect (program : List Instr) (s : State) : State := program.foldl (fun t i => commandEffect i t) s

theorem programEffect_cons (i : Instr) (rest : List Instr) (s : State) :
    programEffect (i :: rest) s = programEffect rest (commandEffect i s) := rfl

/-- Every command leaves the core ready again, the fault included (R224). -/
theorem commandEffect_idle (i : Instr) {s : State} (hp : s.phase = .idle) : (commandEffect i s).phase = .idle := by
  obtain ⟨_, -, hf⟩ := exec_finishesIn i hp
  exact hf.idle

theorem programEffect_idle (program : List Instr) {s : State} (hp : s.phase = .idle) :
    (programEffect program s).phase = .idle := by
  induction program generalizing s with
  | nil => exact hp
  | cons i rest ih => exact ih (commandEffect_idle i hp)

theorem blockEffect_noKey (dir : Dir) (block : Word) {s : State} (hk : s.keyValid = false) :
    blockEffect dir block s = raiseNoKey s := by simp [blockEffect, hk]

@[simp] theorem blockEffect_errNoKey (dir : Dir) (block : Word) (s : State) :
    (blockEffect dir block s).errNoKey = (s.errNoKey || !s.keyValid) := by
  cases hk : s.keyValid with
  | true =>
    obtain ⟨-, -, -, herr⟩ := blockEffect_key dir block hk
    simp [herr]
  | false => simp [blockEffect_noKey dir block hk]

@[simp] theorem blockEffect_keyValid (dir : Dir) (block : Word) (s : State) :
    (blockEffect dir block s).keyValid = s.keyValid := by
  cases hk : s.keyValid with
  | true =>
    obtain ⟨-, hk', -⟩ := blockEffect_key dir block hk
    exact hk'
  | false => simp [blockEffect_noKey dir block hk, hk]

/-- A command raises NoKey exactly when it is a block command and there is no key (R221); none clears the flag (R28). -/
theorem commandEffect_errNoKey (i : Instr) (s : State) :
    (commandEffect i s).errNoKey = (s.errNoKey || (isBlockCommand i && !s.keyValid)) := by
  cases i with
  | nop | ldkey => simp [commandEffect, keyEffect, isBlockCommand]
  | enc | dec => simp [commandEffect, isBlockCommand]

/-- After a command there is a key exactly when there was one or the command is `LDKEY` (R27). -/
theorem commandEffect_keyValid (i : Instr) (s : State) :
    (commandEffect i s).keyValid = (s.keyValid || isKeyCommand i) := by
  cases i with
  | nop | ldkey => simp [commandEffect, keyEffect, isKeyCommand]
  | enc | dec => simp [commandEffect, isKeyCommand]

/-- The flag after a program: it was set before, or there was no key and a block command comes before the first `LDKEY`. -/
theorem programEffect_errNoKey (program : List Instr) (s : State) :
    (programEffect program s).errNoKey = (s.errNoKey || (!s.keyValid && BlockBeforeKey program)) := by
  induction program generalizing s with
  | nil => simp [programEffect, BlockBeforeKey]
  | cons i rest ih =>
    rw [programEffect_cons, ih, commandEffect_errNoKey, commandEffect_keyValid, BlockBeforeKey]
    cases s.keyValid <;> simp [Bool.or_assoc]

theorem blockEffect_raiseNoKey (dir : Dir) (block : Word) (s : State) :
    blockEffect dir block (raiseNoKey s) = raiseNoKey (blockEffect dir block s) := by
  rw [blockEffect, blockEffect, raiseNoKey_keyValid]
  split <;> rfl

/-- No command reads `ERR_NOKEY`: on a faulted core it does what it does on one that is not faulted (R225). -/
theorem commandEffect_raiseNoKey (i : Instr) (s : State) :
    commandEffect i (raiseNoKey s) = raiseNoKey (commandEffect i s) := by
  cases i with
  | nop | ldkey => rfl
  | enc block => exact blockEffect_raiseNoKey .encrypt block s
  | dec block => exact blockEffect_raiseNoKey .decrypt block s

theorem programEffect_raiseNoKey (program : List Instr) (s : State) :
    programEffect program (raiseNoKey s) = raiseNoKey (programEffect program s) := by
  induction program generalizing s with
  | nil => rfl
  | cons i rest ih => rw [programEffect_cons, commandEffect_raiseNoKey, ih, programEffect_cons]

/-- On a ready core only the flag decides whether the run ends well (R225, R260). -/
theorem goodFinal_of_idle {s : State} (hp : s.phase = .idle) : GoodFinal s = !s.errNoKey := by
  rw [GoodFinal, RunEnded, (cmdReady_iff s).mpr hp, Faulted, Bool.true_and]

@[simp] theorem wentWrong_observe (s : State) (taken : List Word) : WentWrong (observe s taken) = s.errNoKey := rfl

/-- A program's lines on a ready core end in its effect (R75). -/
theorem runLines_program (program : List Instr) {s : State} (hp : s.phase = .idle) :
    runLines (program.map Line.command ++ [.wait]) s = .ok (programEffect program s, []) :=
  programsRunAtomically program s hp

/-- A program after RESET runs from the reset state as on any ready core (R40, R96). -/
theorem runLines_reset_program (program : List Instr) (s : State) :
    runLines (.reset :: program.map Line.command ++ [.wait]) s = .ok (programEffect program (resetEdge s), []) := by
  have hprogram := runLines_program program (resetEdge_phase s)
  simp [runLines, runLine, hostReset_eq, hprogram, Except.bind, Except.map]

/-- After a reset there is no flag and no key, so the program alone decides about the flag (R221, R254). -/
theorem programEffect_reset (program : List Instr) (s : State) :
    (programEffect program (resetEdge s)).phase = .idle ∧
      (programEffect program (resetEdge s)).errNoKey = BlockBeforeKey program :=
  ⟨programEffect_idle program rfl, by simp [programEffect_errNoKey]⟩

/-- Settles O40. -/
theorem runGoesWrongExactlyWithoutKey : Obligations.RunGoesWrongExactlyWithoutKey := by
  intro program s
  obtain ⟨hp, herr⟩ := programEffect_reset program s
  exact ⟨_, runLines_reset_program program s, (cmdReady_iff _).mpr hp, herr⟩

/-- Settles O59: the final state is a ready one, so that it is good exactly when the flag is not set. -/
theorem runEndsGoodExactlyWithKey : Obligations.RunEndsGoodExactlyWithKey := by
  intro program s
  obtain ⟨hp, herr⟩ := programEffect_reset program s
  have hgood := goodFinal_of_idle hp
  exact ⟨_, runLines_reset_program program s, by rw [hgood, herr], by rw [hgood, wentWrong_observe, Bool.not_not]⟩

/-- A faulted state is the fault entry's result on the same state not faulted (R224). -/
theorem raiseNoKey_clear {s : State} (h : s.errNoKey = true) : raiseNoKey { s with errNoKey := false } = s := by
  rw [raiseNoKey, ← h]

/-- Settles O58: fault entry commutes with the effect of every program, and a reset edge clears the flag. -/
theorem faultedCoreGoesOnNeverGood : Obligations.FaultedCoreGoesOnNeverGood := by
  intro program s hp herr
  refine ⟨⟨_, _, runLines_program program hp, runLines_program program hp, ?_⟩, resetEdge s, step_reset rfl, rfl⟩
  have hidle := programEffect_idle program hp
  have hfaulted : (programEffect program s).errNoKey = true := by rw [programEffect_errNoKey, herr, Bool.true_or]
  have hsame : programEffect program s = raiseNoKey (programEffect program { s with errNoKey := false }) := by
    rw [← programEffect_raiseNoKey, raiseNoKey_clear herr]
  exact ⟨hsame, (cmdReady_iff _).mpr hidle, hfaulted, by rw [goodFinal_of_idle hidle, hfaulted, Bool.not_true]⟩

end Sys2Proof.Machine
end

section
namespace Sys2Proof.Machine

/-! ### Reset edges, busy edges and commands back to back (R250, R255, R262) -/

/-- Reset is on the ports at each of the next `n` edges. -/
def ResetPorts (n : Nat) (s : State) : Prop := n ≤ s.inputs.length ∧ ∀ p ∈ s.inputs.take n, p.rst = true

theorem resetPorts_succ {n : Nat} {s : State} (h : ResetPorts (n + 1) s) :
    (portsNow s).rst = true ∧ ResetPorts n (resetEdge (popInputs s)) := by
  unfold ResetPorts portsNow at *
  rw [resetEdge_inputs, popInputs_inputs]
  cases hi : s.inputs with
  | nil => simp [hi] at h
  | cons p rest => simpa [hi, and_left_comm] using h

/-- From any state, one reset edge reaches the reset state and every further one stays there (R250). -/
theorem runEdges_reset {n : Nat} {s : State} (h : ResetPorts (n + 1) s) :
    runEdges (n + 1) s = .next (withInputs State.reset (s.inputs.drop (n + 1))) := by
  induction n generalizing s with
  | zero =>
    obtain ⟨hr, -⟩ := resetPorts_succ h
    rw [runEdges_succ 0 (step_reset hr), List.drop_one]
    rfl
  | succ n ih =>
    obtain ⟨hr, hrest⟩ := resetPorts_succ h
    rw [runEdges_succ (n + 1) (step_reset hr), ih hrest, resetEdge_inputs, popInputs_inputs, List.drop_tail]

theorem reset_k_getElem (i : Fin 16) : State.reset.k[i] = 0#48 := Vector.getElem_replicate i.isLt

/-- Settles O7: the reset state is the table of R40. -/
theorem resetEdges : Obligations.ResetEdges := fun _ _ hlen hrst =>
  ⟨_, runEdges_reset ⟨hlen, hrst⟩, rfl, rfl, rfl, rfl, rfl, rfl, reset_k_getElem, rfl, rfl, rfl, rfl, rfl, rfl⟩

/-- A busy edge without reset does not depend on the port values it uses up (R255). -/
theorem step_withPorts_busy {s : State} {p : PortIn} (hb : s.phase ≠ .idle) (hr : p.rst = false) :
    step (withPorts s p) = .next (advance s) := by
  rw [step_busy (by rwa [portsNow_withPorts]) (by rwa [withPorts_phase]), popInputs_withPorts]

/-- Settles O34: with any ports the edge is `advance`. -/
theorem busyCoreIgnoresPorts : Obligations.BusyCoreIgnoresPorts := by
  intro s p q hb hp hq
  have hstep := step_withPorts_busy hb hp
  exact ⟨hstep.trans (step_withPorts_busy hb hq).symm, acceptedCommand_busy hb,
    advance s, hstep, advance_errNoKey s, advance_inputs s⟩

/-- A block command's acceptance does not read the waveform. -/
theorem acceptBlock_withInputs (dir : Dir) (block : Word) (s : State) (ws : List PortIn) :
    acceptBlock dir block (withInputs s ws) = withInputs (acceptBlock dir block s) ws := by
  cases hk : s.keyValid with
  | true =>
    rw [acceptBlock_key dir block hk]
    exact acceptBlock_key dir block hk
  | false =>
    rw [acceptBlock_noKey dir block hk]
    exact acceptBlock_noKey dir block hk

/-- With the word of `i` at the front of the waveform, the next edge of a ready core is the accepting edge of `i`, and the rest
of the waveform is left (R171). -/
theorem step_presenting {i : Instr} {s u : State} (hp : s.phase = .idle) (h : exec i s = .next u) (ws : List PortIn) :
    step (withInputs s (presenting (encode i) :: ws)) = .next (withInputs u ws) := by
  have hword : decode (portWord (presenting (encode i))) = i := by rw [portWord_presenting, decode_encode]
  have haccepted : acceptedCommand (withInputs s (presenting (encode i) :: ws)) = some i :=
    acceptedCommand_eq_some.mpr ⟨rfl, rfl, hp, hword⟩
  have hp' : (withInputs s ws).phase = .idle := hp
  refine (step_accepted haccepted).trans (?_ : exec i (withInputs s ws) = _)
  cases i with
  | nop data =>
    cases (exec_nop_idle data hp).symm.trans h
    exact exec_nop_idle data hp'
  | ldkey key =>
    cases (exec_ldkey_idle key hp).symm.trans h
    exact exec_ldkey_idle key hp'
  | enc block =>
    cases (exec_enc_idle block hp).symm.trans h
    rw [exec_enc_idle block hp', acceptBlock_withInputs]
  | dec block =>
    cases (exec_dec_idle block hp).symm.trans h
    rw [exec_dec_idle block hp', acceptBlock_withInputs]

theorem commandEdges_pos (i : Instr) (s : State) : 0 < commandEdges i s := by
  cases i with
  | nop | ldkey => simp [commandEdges, Config.tNop, Config.tLdkey]
  | enc | dec =>
    rw [commandEdges]
    split <;> simp [Config.tNop, Config.tBlock]

/-- A word held on the ports for the edges of its command is accepted once, and the command takes effect as a whole
(R171, R255, R262). -/
theorem runEdges_command (i : Instr) {s : State} (rest : List PortIn) (hp : s.phase = .idle) :
    runEdges (commandEdges i s)
        (withInputs s (List.replicate (commandEdges i s) (presenting (encode i)) ++ rest)) =
      .next (withInputs (commandEffect i s) rest) := by
  obtain ⟨u, hexec, hbusy⟩ := exec_finishesIn i hp
  obtain ⟨n, hn⟩ := Nat.exists_eq_add_one.mpr (commandEdges_pos i s)
  rw [hn, Nat.add_sub_cancel] at hbusy
  have hlen : (List.replicate n (presenting (encode i))).length = n := List.length_replicate
  have hquiet : ∀ p ∈ (List.replicate n (presenting (encode i)) ++ rest).take n, p.rst = false := by
    intro p hmem
    rw [List.take_left' hlen] at hmem
    rw [List.eq_of_mem_replicate hmem, presenting_rst]
  rw [hn, List.replicate_succ, List.cons_append, runEdges_succ n (step_presenting hp hexec _),
    hbusy.runEdges_eq hquiet, List.drop_left' hlen]

/-- The words of block commands, each held on the ports for the edges of a block command (R262). -/
def heldBlocks (dir : Dir) (blocks : List Word) : List PortIn :=
  blocks.flatMap fun b => List.replicate Config.tBlock (presenting (encode (blockCommand dir b)))

/-- One block command held on the ports of a core with a key: 18 edges (R177, R178, R262). -/
theorem runEdges_blockCommand (dir : Dir) (b : Word) {s : State} (rest : List PortIn) (hp : s.phase = .idle)
    (hk : s.keyValid = true) :
    runEdges Config.tBlock
        (withInputs s (List.replicate Config.tBlock (presenting (encode (blockCommand dir b))) ++ rest)) =
      .next (withInputs (blockEffect dir b s) rest) := by
  have hedges : commandEdges (blockCommand dir b) s = Config.tBlock := by
    cases dir <;> simp [blockCommand, commandEdges, hk]
  have hrun := runEdges_command (blockCommand dir b) rest hp
  rwa [hedges, commandEffect_blockCommand] at hrun

/-- Block commands back to back on a core with a key. -/
theorem runEdges_heldBlocks (dir : Dir) (blocks : List Word) {s : State} (rest : List PortIn) (hp : s.phase = .idle)
    (hk : s.keyValid = true) :
    runEdges (Config.tBlock * blocks.length) (withInputs s (heldBlocks dir blocks ++ rest)) =
      .next (withInputs (blocksEffect dir blocks s) rest) := by
  induction blocks generalizing s with
  | nil => rfl
  | cons b bs ih =>
    obtain ⟨hp', hk', -, -⟩ := blockEffect_key dir b hk
    have hfirst := runEdges_blockCommand dir b (heldBlocks dir bs ++ rest) hp hk
    rw [List.length_cons, Nat.mul_succ, Nat.add_comm, heldBlocks, List.flatMap_cons, List.append_assoc]
    exact (runEdges_add _ _ hfirst).trans (ih hp' hk')

/-- Settles O39: the key load's 17 edges and then those of the blocks. -/
theorem backToBackMessageTiming : Obligations.BackToBackMessageTiming := by
  intro key blocks rest s hp hin
  have hkey := runEdges_command (.ldkey key) (heldBlocks .encrypt blocks ++ rest) hp
  have hblocks := runEdges_heldBlocks .encrypt blocks (s := keyEffect key s) rest rfl rfl
  conv_lhs => rw [← withInputs_self s, hin, List.append_assoc]
  exact (runEdges_add _ _ hkey).trans hblocks

end Sys2Proof.Machine
end
